-- ==== Sys2Proof/Word.lean ====
section
/-! DEFINITION. The word: the unit of memory, of instruction fetch and of every register
(00_scope.md R4, R9), and the number of a general register (10_state.md R12). -/

namespace Sys2Proof

/-- A 32-bit pattern (00_scope.md R4 `WORD`, `XLEN`, `ILEN`; R5: bit 0 is the least significant). -/
abbrev Word := BitVec 32

/-- The number of a general register, 0 to 7 (10_state.md R12). No number is special (R13). -/
abbrev RegIdx := Fin 8

end Sys2Proof
end

