-- ==== Sys2Proof/Config.lean ====
section
/-! DEFINITION. The implementation parameters of 00_scope.md R4, and the one open value of the spec,
`MEM_INIT` (92_eei_decisions.md D14). -/

namespace Sys2Proof

/-- `MEM_WORDS`: the number of words of the memory array, addresses 0 to 65535 (00_scope.md R4). -/
abbrev Config.memWords : Nat := 65536

/-- `PC_RESET` (00_scope.md R4). -/
abbrev Config.pcReset : Int := 0

/-- `REG_RESET` (00_scope.md R4). -/
abbrev Config.regReset : Word := 0

/-- `MEM_INIT`: what a word that neither the image nor a `sw` has written holds, by its address.
FREE VALUE (log 2): any 32-bit value, fixed at launch, the same on every read until a `sw` overwrites the word
(00_scope.md R4, 10_state.md R25, 93_implementation_defined.md V3). It has no body, so nothing can be proved of what it is. -/
opaque Config.memInit : Nat → Word

end Sys2Proof
end

