-- ==== Sys2Proof/Machine/Flags.lean ====
section
/-! DEFINITION. The machine has no flags and no condition codes (10_state.md R23). What stands here are the combinational
conditions of its sub-blocks (R24), which nothing stores. -/

namespace Sys2Proof.Machine

/-- The range comparator of the fetch and the bounds check of the load/store unit: `0 <= n <= 65535`
(40_step_cycle.md R82, 42_load_store.md R110). -/
def inMemory (n : Int) : Bool := decide (0 ≤ n ∧ n < Config.memWords)

/-- The equality comparator of `beq`, on all 32 bits (10_state.md R24, 41_alu_add_nor.md R102(d)). -/
def wordsEqual (v w : Word) : Bool := decide (v = w)

end Sys2Proof.Machine
end

