-- ==== Sys2Proof/Machine/State.lean ====
section
/-! DEFINITION. The state of the machine, exactly the list of 10_state.md R10, as plain data, and its value after reset
(R25). -/

namespace Sys2Proof.Machine

/-- The run state (10_state.md R19). -/
inductive RunState where
  /-- The core performs one step per cycle. -/
  | running
  /-- Entered by the step that executes `halt`; absorbing until reset. -/
  | halted
  /-- Entered by a step that raises a fault; absorbing until reset. -/
  | faulted
deriving DecidableEq, Repr

/-- The causes the fault record can name (60_exceptions.md R141). -/
inductive FaultCause where
  /-- Code 0: `run` is Running or Halted. -/
  | noFault
  /-- Code 1, raised by the decode of any fetched word (R142). -/
  | unsupportedOpcode
  /-- Code 2, raised by `add` and `nor` (R143). -/
  | invalidRegister
  /-- Code 3, which the core never raises (R144). -/
  | offsetRange
  /-- Code 4, raised by the fetch of any step (R145). -/
  | pcOutOfRange
  /-- Code 5, raised by `lw` and `sw` (R146). -/
  | memoryBounds
deriving DecidableEq, Repr

/-- The words that the image and the committed `sw` instructions have written: (address, word) pairs. A word that is not
listed holds its launch content (20_memory.md R32), see `State.memWord`. The cell is the WORD, since the machine has no
bytes and a model must not introduce them (20_memory.md R30, R34; log 1). -/
abbrev Memory := List (Nat × Word)

/-- The canonical form: addresses strictly rising, each below 65536 (20_memory.md R30; log 2). -/
abbrev Memory.wf (m : Memory) : Prop :=
  m.Pairwise (fun c d => c.1 < d.1) ∧ ∀ c ∈ m, c.1 < Config.memWords

/-- The state of the machine (10_state.md R10). -/
structure State where
  /-- (a) The program counter, a word address and a signed 32-bit integer (R15, 00_scope.md R7; log 3). -/
  pc : Int
  /-- (b) The memory array of 65536 words (R18). -/
  mem : Memory
  /-- (c) The general registers `x[0]` to `x[7]` (R12). -/
  regs : Vector Word 8
  /-- (d) The run state (R19). -/
  run : RunState
  /-- (e) The fault record's cause (R20). -/
  faultCause : FaultCause
  /-- (e) The fault record's pc: the pc at the start of the faulting step (R20). -/
  faultPc : Int
  /-- (e) The fault record's info, a mathematical integer (R20, 60_exceptions.md R147). -/
  faultInfo : Int
  /-- (f) The count of completed steps, unbounded (R21). -/
  icount : Nat
deriving DecidableEq, Repr

/-- The reasons for the host's outcome `fault`. There is none: what the spec calls a fault has an entry that the spec
describes (60_exceptions.md R149), so it is a next state with `run = Faulted` (log 5). -/
inductive Fault where
deriving DecidableEq, Repr

/-- The reasons for the host's outcome `refused`. -/
inductive Refusal where
  /-- An instruction without a meaning, by its mnemonic. No arm of `exec` raises it: all eight have their meaning. Safe. -/
  | notModelled (mnemonic : String)
deriving DecidableEq, Repr

/-- The machine right after reset (10_state.md R25), with no image loaded: every memory word holds its launch content. -/
def State.reset : State where
  pc := Config.pcReset
  mem := []
  regs := Vector.replicate 8 Config.regReset
  run := .running
  faultCause := .noFault
  faultPc := 0
  faultInfo := 0
  icount := 0

end Sys2Proof.Machine
end

