-- ==== Sys2Proof/Machine/Ops.lean ====
section
/-! DEFINITION. The operations every instruction is made of: registers, memory words, the incremented pc, the commit of a
step, taking a fault, and reset, the only way out of a fault. -/

namespace Sys2Proof.Machine

/-! ## Numbers -/

/-- `signed(v)`: two's complement (00_scope.md R6; decision D4, log 11). -/
def signed (v : Word) : Int := if v.toNat < 2 ^ 31 then (v.toNat : Int) else (v.toNat : Int) - 2 ^ 32

/-- `unsigned(v)` (00_scope.md R5). -/
def unsigned (v : Word) : Int := v.toNat

/-- `trunc_32(n)`: the pattern whose unsigned value is `n mod 2^32` (00_scope.md R7). -/
def trunc32 (n : Int) : Word := BitVec.ofNat 32 (n % 2 ^ 32).toNat

/-! ## Registers (10_state.md R12 to R14) -/

/-- `x[i]`: the pattern most recently written. No register is hardwired (10_state.md R13, R14). -/
def State.reg (s : State) (i : RegIdx) : Word := s.regs[i]

/-- `x[i] <- v`, register 0 like any other (10_state.md R13). -/
def State.writeReg (s : State) (i : RegIdx) (v : Word) : State := { s with regs := s.regs.set i v }

/-! ## Memory words (20_memory.md R32, R33) -/

/-- The word listed at an address, if it has been written. -/
def Memory.word? : Memory → Nat → Option Word
  | [], _ => none
  | (a, v) :: rest, n => if n = a then some v else Memory.word? rest n

/-- The listing with the word at one address replaced, kept in rising order. -/
def Memory.put : Memory → Nat → Word → Memory
  | [], n, v => [(n, v)]
  | (a, u) :: rest, n, v =>
    if n < a then (n, v) :: (a, u) :: rest
    else if n = a then (n, v) :: rest
    else (a, u) :: Memory.put rest n v

/-- `mem[n]`: the pattern most recently written, or the launch content of the word if none has been
(20_memory.md R32; log 2). -/
def State.memWord (s : State) (n : Nat) : Word := (s.mem.word? n).getD (Config.memInit n)

/-- `w`, the instruction word of a step: `mem[pc]`, which the fetch reads and a fault of `add` or `nor` records
(40_step_cycle.md R82, 60_exceptions.md R143). No instruction has written memory before it executes (20_memory.md R44), so it
stands there throughout the step. -/
def State.fetchedWord (s : State) : Word := s.memWord s.pc.toNat

/-- `MemRead(addr, 1)`; `none` is `MemoryBounds(addr)` (20_memory.md R32). It changes nothing. -/
def State.memRead (s : State) (addr : Int) : Option Word :=
  if inMemory addr then some (s.memWord addr.toNat) else none

/-- `MemWrite(addr, 1, v)`; `none` is `MemoryBounds(addr)` (20_memory.md R33). -/
def State.memWrite (s : State) (addr : Int) (v : Word) : Option State :=
  if inMemory addr then some { s with mem := s.mem.put addr.toNat v } else none

/-! ## The frame of a step -/

/-- `npc = pc + 1`, computed for every instruction before it executes (40_step_cycle.md R85). -/
def State.npc (s : State) : Int := s.pc + 1

/-- The commit of a step that raised no fault: `pc <- target`, `icount <- icount + 1`, together with the writes already
made to `s` (40_step_cycle.md R89, 10_state.md R21). -/
def State.commit (s : State) (target : Int) : State := { s with pc := target, icount := s.icount + 1 }

/-- `raise cause(info)`: taking a fault (60_exceptions.md R147, R149). The core becomes Faulted, the record is written, and
pc, registers, memory and icount keep the values they had at the start of the step (log 14). -/
def State.takeFault (s : State) (cause : FaultCause) (info : Int) : State :=
  { s with run := .faulted, faultCause := cause, faultPc := s.pc, faultInfo := info }

/-- Reset, the only way out of Faulted and Halted, since no instruction returns from a fault (60_exceptions.md R150): every
piece of core state takes its reset value and memory is not written (70_reset_and_hazards.md R170). -/
def State.resetCore (s : State) : State := { State.reset with mem := s.mem }

end Sys2Proof.Machine
end

