-- ==== Sys2Proof/Machine/Operands.lean ====
section
/-! DEFINITION. The operand forms: the R-format destination register, the sign-extended offset, and the one addressing
mode. -/

namespace Sys2Proof.Machine

/-- `sext_32(raw16)` as an integer: `v` if `v < 32768`, else `v - 65536` (00_scope.md R7, 30_encoding.md R57). -/
def sext32 (raw16 : BitVec 16) : Int :=
  if raw16.toNat < 32768 then (raw16.toNat : Int) else (raw16.toNat : Int) - 65536

/-- The R-format destination: the whole 16-bit field, which must be at most 7; `none` is `InvalidRegister`
(30_encoding.md R59, 40_step_cycle.md R86; decision D2, log 9). -/
def destReg? (dest : BitVec 16) : Option RegIdx :=
  if dest.toNat ≤ 7 then some (Fin.ofNat 8 dest.toNat) else none

/-- The effective address, an exact integer sum: `ea = signed(x[a]) + sext_32(raw16)` (42_load_store.md R110). -/
def State.effectiveAddress (s : State) (regA : RegIdx) (raw16 : BitVec 16) : Int :=
  signed (s.reg regA) + sext32 raw16

/-- The target of a taken branch: `npc + sext_32(raw16)`, not checked when the branch executes
(43_control_transfer.md R120). -/
def State.branchTarget (s : State) (raw16 : BitVec 16) : Int := s.npc + sext32 raw16

end Sys2Proof.Machine
end

