-- ==== Sys2Proof/Syntax.lean ====
section
/-! DEFINITION. The instructions, one constructor per row of spec/opcode_table.json (30_encoding.md R56).

The arguments are the fields of the row in the order of the assembly operands (30_encoding.md R70). The 16-bit field
stays raw, as in the decoder: "kept unsigned until the consuming instruction interprets it" (R51, R57). For `add` and `nor`
the destination register number is that whole field (R59; 90_conflicts.md C2), which is why their third argument is 16 bits
wide and has a check in WellFormed. -/

namespace Sys2Proof

/-- The eight instructions of the core (00_scope.md R1). -/
inductive Instr where
  /-- opcode 0, R format (R52). -/
  | add (regA regB : RegIdx) (dest : BitVec 16)
  /-- opcode 1, R format (R52). -/
  | nor (regA regB : RegIdx) (dest : BitVec 16)
  /-- opcode 2, I format (R53). -/
  | lw (regA regB : RegIdx) (raw16 : BitVec 16)
  /-- opcode 3, I format (R53). -/
  | sw (regA regB : RegIdx) (raw16 : BitVec 16)
  /-- opcode 4, I format (R53). -/
  | beq (regA regB : RegIdx) (raw16 : BitVec 16)
  /-- opcode 5, J format (R54); bits 15:0 are ignored (R60), so it carries none. -/
  | jalr (regA regB : RegIdx)
  /-- opcode 6, O format (R55); bits 21:0 are ignored (R60). -/
  | halt
  /-- opcode 7, O format (R55); bits 21:0 are ignored (R60). -/
  | noop
deriving DecidableEq, Repr

/-- The opcode number, bits 24:22 of the word (30_encoding.md R56). -/
def Instr.opcode : Instr → Nat
  | .add _ _ _ => 0
  | .nor _ _ _ => 1
  | .lw _ _ _ => 2
  | .sw _ _ _ => 3
  | .beq _ _ _ => 4
  | .jalr _ _ => 5
  | .halt => 6
  | .noop => 7

end Sys2Proof
end

