-- ==== Sys2Proof/Machine/Alu.lean ====
section
/-! DEFINITION. The R-format instructions `add` and `nor` (41_alu_add_nor.md). -/

namespace Sys2Proof.Machine

/-- The ALU's addition: the low 32 bits of the sum (41_alu_add_nor.md R100; decision D4, log 11). -/
def aluAdd (va vb : Word) : Word := trunc32 (unsigned va + unsigned vb)

/-- The ALU's bitwise nor, all 32 bits (41_alu_add_nor.md R101). -/
def aluNor (va vb : Word) : Word := ~~~(va ||| vb)

/-- An R-format instruction: the register validation first, then `x[d] <- result` and `pc <- npc`
(40_step_cycle.md R86; 41_alu_add_nor.md R100, R101). `InvalidRegister` records the word the step fetched
(60_exceptions.md R143; log 6). The result was computed from the registers before the write. -/
def State.rFormat (s : State) (dest : BitVec 16) (result : Word) : Host.Outcome State Fault Refusal :=
  match destReg? dest with
  | none => .next (s.takeFault .invalidRegister (unsigned s.fetchedWord))
  | some d => .next ((s.writeReg d result).commit s.npc)

/-- `add regA regB destReg` (41_alu_add_nor.md R100). -/
def execAdd (regA regB : RegIdx) (dest : BitVec 16) (s : State) : Host.Outcome State Fault Refusal :=
  s.rFormat dest (aluAdd (s.reg regA) (s.reg regB))

/-- `nor regA regB destReg` (41_alu_add_nor.md R101). -/
def execNor (regA regB : RegIdx) (dest : BitVec 16) (s : State) : Host.Outcome State Fault Refusal :=
  s.rFormat dest (aluNor (s.reg regA) (s.reg regB))

end Sys2Proof.Machine
end

