-- ==== Sys2Proof/Machine/Control.lean ====
section
/-! DEFINITION. Control transfer: `beq` and `jalr` (43_control_transfer.md). Neither checks its target: a target outside the
memory is found by the fetch of the next step (R122(c)). -/

namespace Sys2Proof.Machine

/-- `beq regA regB offset` (43_control_transfer.md R120). It writes no register and no memory. -/
def execBeq (regA regB : RegIdx) (raw16 : BitVec 16) (s : State) : Host.Outcome State Fault Refusal :=
  .next (s.commit (if wordsEqual (s.reg regA) (s.reg regB) then s.branchTarget raw16 else s.npc))

/-- `x[b] <- trunc_32(npc)`, the link write of `jalr` (43_control_transfer.md R121). -/
def State.link (s : State) (regB : RegIdx) : State := s.writeReg regB (trunc32 s.npc)

/-- `jalr regA regB` (43_control_transfer.md R121): link first, then jump through `x[a]`, read AFTER the link write
(00_scope.md R8), so that `jalr r r` falls through. -/
def execJalr (regA regB : RegIdx) (s : State) : Host.Outcome State Fault Refusal :=
  .next ((s.link regB).commit (signed ((s.link regB).reg regA)))

end Sys2Proof.Machine
end

