-- ==== Sys2Proof/Machine/HaltNoop.lean ====
section
/-! DEFINITION. The halt detector and `noop` (44_halt_noop.md). -/

namespace Sys2Proof.Machine

/-- `run <- Halted`, the halt detector's action (44_halt_noop.md R130). -/
def State.halt (s : State) : State := { s with run := .halted }

/-- `halt` (44_halt_noop.md R130): `pc <- npc`, `run <- Halted`. The step commits, so it is counted; no range check is made on
the pc it leaves (decision D6, log 12). -/
def execHalt (s : State) : Host.Outcome State Fault Refusal := .next (s.halt.commit s.npc)

/-- `noop` (44_halt_noop.md R131): `pc <- npc`. -/
def execNoop (s : State) : Host.Outcome State Fault Refusal := .next (s.commit s.npc)

end Sys2Proof.Machine
end

