-- ==== Sys2Proof/Machine/LoadStore.lean ====
section
/-! DEFINITION. The load/store unit: `lw` and `sw` (42_load_store.md). -/

namespace Sys2Proof.Machine

/-- `lw regA regB offset` (42_load_store.md R111): `x[b] <- MemRead(ea, 1)`, `pc <- npc`; `MemoryBounds(ea)` out of range.
The address is computed from the old `x[a]`. -/
def execLw (regA regB : RegIdx) (raw16 : BitVec 16) (s : State) : Host.Outcome State Fault Refusal :=
  match s.memRead (s.effectiveAddress regA raw16) with
  | none => .next (s.takeFault .memoryBounds (s.effectiveAddress regA raw16))
  | some v => .next ((s.writeReg regB v).commit s.npc)

/-- `sw regA regB offset` (42_load_store.md R112): `MemWrite(ea, 1, x[b])`, `pc <- npc`; `MemoryBounds(ea)` out of range. -/
def execSw (regA regB : RegIdx) (raw16 : BitVec 16) (s : State) : Host.Outcome State Fault Refusal :=
  match s.memWrite (s.effectiveAddress regA raw16) (s.reg regB) with
  | none => .next (s.takeFault .memoryBounds (s.effectiveAddress regA raw16))
  | some t => .next (t.commit s.npc)

end Sys2Proof.Machine
end

