-- ==== Sys2Proof/Machine/Dispatch.lean ====
section
/-! DEFINITION. What each instruction does (40_step_cycle.md R88), one arm per constructor of Instr. -/

namespace Sys2Proof.Machine

def exec (i : Instr) (s : State) : Host.Outcome State Fault Refusal :=
  match i with
  | .add regA regB dest => Sys2Proof.Machine.execAdd regA regB dest s
  | .nor regA regB dest => Sys2Proof.Machine.execNor regA regB dest s
  | .lw regA regB raw16 => Sys2Proof.Machine.execLw regA regB raw16 s
  | .sw regA regB raw16 => Sys2Proof.Machine.execSw regA regB raw16 s
  | .beq regA regB raw16 => Sys2Proof.Machine.execBeq regA regB raw16 s
  | .jalr regA regB => Sys2Proof.Machine.execJalr regA regB s
  | .halt => Sys2Proof.Machine.execHalt s
  | .noop => Sys2Proof.Machine.execNoop s

end Sys2Proof.Machine
end

