-- ==== Sys2Proof/WellFormed.lean ====
section
/-! DEFINITION. The register validation that a decoded instruction has to pass before it is executed (40_step_cycle.md R86).

The register fields `regA` and `regB` and the I-format offset are bounded by their types (R86: "the check always passes";
R87: "this check can never fail"). What is left is the R-format destination. -/

namespace Sys2Proof

/-- The check on the R-format destination register number: `raw16 <= 7`, that is `w[15:3] = 0`
(30_encoding.md R59, 40_step_cycle.md R86). Register 0 passes it. -/
def destOk (dest : BitVec 16) : Bool := decide (dest.toNat ≤ 7)

/-- An instruction is well-formed when every register operand is in [0,7] (40_step_cycle.md R86). -/
def Instr.wellFormed : Instr → Bool
  | .add _ _ dest => destOk dest
  | .nor _ _ dest => destOk dest
  | .lw _ _ _ => true
  | .sw _ _ _ => true
  | .beq _ _ _ => true
  | .jalr _ _ => true
  | .halt => true
  | .noop => true

end Sys2Proof
end

