-- ==== Sys2Proof/Decode.lean ====
section
/-! DEFINITION. The decoder (30_encoding.md Part 1; 40_step_cycle.md R83, R84) and, after it, the instruction word encoder
(30_encoding.md Part 2), which no step uses (R68). -/

namespace Sys2Proof

/-! ## Fields -/

/-- `w[hi:lo]`, the field of bits `hi` down to `lo` read as an unsigned integer (00_scope.md R5). -/
def field (w : Word) (hi lo : Nat) : Nat := w.toNat / 2 ^ lo % 2 ^ (hi - lo + 1)

/-- `regA`, bits 21:19 (30_encoding.md R51). -/
def regAOf (w : Word) : RegIdx := Fin.ofNat 8 (field w 21 19)

/-- `regB`, bits 18:16 (30_encoding.md R51). -/
def regBOf (w : Word) : RegIdx := Fin.ofNat 8 (field w 18 16)

/-- `raw16`, bits 15:0, unsigned (30_encoding.md R51). -/
def raw16Of (w : Word) : BitVec 16 := BitVec.ofNat 16 (field w 15 0)

/-! ## The decoder -/

/-- Dispatch (40_step_cycle.md R84): a word with any of bits 31:25 set selects no instruction (30_encoding.md R58; decision D1,
log 9); otherwise the opcode, bits 24:22, selects it (R56). Nothing looks at bits 15:0 of the J format or bits 21:0 of the
O format (R60; decision D3, log 10). The last arm is R84's "opcode values outside this range fail". -/
def dispatch (w : Word) : Option Instr :=
  if field w 31 25 ≠ 0 then none
  else
    match field w 24 22 with
    | 0 => some (.add (regAOf w) (regBOf w) (raw16Of w))
    | 1 => some (.nor (regAOf w) (regBOf w) (raw16Of w))
    | 2 => some (.lw (regAOf w) (regBOf w) (raw16Of w))
    | 3 => some (.sw (regAOf w) (regBOf w) (raw16Of w))
    | 4 => some (.beq (regAOf w) (regBOf w) (raw16Of w))
    | 5 => some (.jalr (regAOf w) (regBOf w))
    | 6 => some .halt
    | 7 => some .noop
    | _ => none

/-- Why a word is illegal (30_encoding.md R61, R63). -/
inductive Illegal where
  /-- Any of bits 31:25 is set (R58). -/
  | unsupportedOpcode
  /-- An R-format word with any of bits 15:3 set (R59). -/
  | invalidRegister
deriving DecidableEq, Repr

/-- The verdict on a word, total (30_encoding.md R63): the opcode check first, then the R-format register check. -/
def decode (w : Word) : Except Illegal Instr :=
  match dispatch w with
  | none => .error .unsupportedOpcode
  | some i => if i.wellFormed then .ok i else .error .invalidRegister

/-- The instruction the decoder reads from a table row's word. The table's one word is the whole instruction: 32 bits
(30_encoding.md R50), and a missing high bit is 0. -/
def decodeTableWord (_nbits w : Nat) : Option Instr := dispatch (BitVec.ofNat 32 w)

/-! ## The encoder -/

/-- The packing formula of 30_encoding.md R66: every bit it does not name is 0. (The powers stand first in each product, so that
the kernel never counts up to them.) -/
def packFields (op a b low : Nat) : Word :=
  BitVec.ofNat 32 (2 ^ 22 * op + 2 ^ 19 * a + 2 ^ 16 * b + low)

/-- `pack` of 30_encoding.md R66, on instructions with their fields in range, `d = 0` included. -/
def encode (i : Instr) : Word :=
  match i with
  | .add a b dest => packFields 0 a.val b.val dest.toNat
  | .nor a b dest => packFields 1 a.val b.val dest.toNat
  | .lw a b raw16 => packFields 2 a.val b.val raw16.toNat
  | .sw a b raw16 => packFields 3 a.val b.val raw16.toNat
  | .beq a b raw16 => packFields 4 a.val b.val raw16.toNat
  | .jalr a b => packFields 5 a.val b.val 0
  | .halt => packFields 6 0 0 0
  | .noop => packFields 7 0 0 0

/-- A word is canonical when the bits its format ignores are 0: bits 15:0 in the J format, bits 21:0 in the O format
(30_encoding.md R60, R67). -/
def canonicalWord (w : Word) : Bool :=
  match field w 24 22 with
  | 5 => field w 15 0 == 0
  | 6 => field w 21 0 == 0
  | 7 => field w 21 0 == 0
  | _ => true

/-- The four instruction formats (30_encoding.md R52 to R55). -/
inductive Format where
  | r | i | j | o
deriving DecidableEq, Repr

/-- The format class follows from the opcode (40_step_cycle.md R84). -/
def formatOf (op : Fin 8) : Format :=
  if op.val ≤ 1 then .r else if op.val ≤ 4 then .i else if op.val = 5 then .j else .o

/-- The inputs of the encoder block: `e_op`, `e_a`, `e_b`, `e_d`, `e_off` (30_encoding.md R68). The register numbers and the
offset "arrive as mathematical integers of any size" (R64); an input its format does not use is not looked at. -/
structure EncoderInput where
  op : Fin 8
  a : Int
  b : Int
  d : Int
  off : Int
deriving DecidableEq, Repr

/-- The two errors of the encoder (30_encoding.md R65, R68). -/
inductive EncoderError where
  /-- `e_err = 1`: a register operand outside [0,7], or an R-format destination 0. -/
  | invalidRegister
  /-- `e_err = 2`: an I-format offset outside [-32768, 32767]. -/
  | offsetRange
deriving DecidableEq, Repr

/-- The encoder's register check (30_encoding.md R65). -/
def encoderRegOk (n : Int) : Bool := decide (0 ≤ n ∧ n ≤ 7)

/-- The encoder's offset check (30_encoding.md R65). -/
def encoderOffOk (off : Int) : Bool := decide (-32768 ≤ off ∧ off ≤ 32767)

/-- The low 16 bits that the format stores (30_encoding.md R66): `d`, `off mod 2^16`, or 0. -/
def EncoderInput.low (e : EncoderInput) : Nat :=
  match formatOf e.op with
  | .r => e.d.toNat
  | .i => (e.off % 65536).toNat
  | .j => 0
  | .o => 0

/-- `pack` on the encoder's inputs (30_encoding.md R66). The O format has no register fields. -/
def EncoderInput.pack (e : EncoderInput) : Word :=
  match formatOf e.op with
  | .o => packFields e.op.val 0 0 0
  | _ => packFields e.op.val e.a.toNat e.b.toNat e.low

/-- The checks of 30_encoding.md R65, a register error before an offset error (decision D23, log 16). -/
def EncoderInput.error? (e : EncoderInput) : Option EncoderError :=
  match formatOf e.op with
  | .r =>
    if encoderRegOk e.a && encoderRegOk e.b && encoderRegOk e.d && decide (e.d ≠ 0) then none
    else some .invalidRegister
  | .i =>
    if !(encoderRegOk e.a && encoderRegOk e.b) then some .invalidRegister
    else if !encoderOffOk e.off then some .offsetRange
    else none
  | .j => if encoderRegOk e.a && encoderRegOk e.b then none else some .invalidRegister
  | .o => none

/-- The instruction word encoder (30_encoding.md R65, R66): the packed word, or the error and no word. -/
def encoderBlock (e : EncoderInput) : Except EncoderError Word :=
  match e.error? with
  | some err => .error err
  | none => .ok e.pack

/-- The output `e_ok` (30_encoding.md R68). -/
def encoderOk (e : EncoderInput) : Bool := e.error?.isNone

/-- The output `e_err`: 0 none, 1 `InvalidRegister`, 2 `OffsetRange` (30_encoding.md R68). -/
def encoderErr (e : EncoderInput) : BitVec 2 :=
  match e.error? with
  | none => 0
  | some .invalidRegister => 1
  | some .offsetRange => 2

/-- The encoder input that stands for an instruction (30_encoding.md R64): the R-format destination as a number, the
I-format offset as the two's complement value of the field. -/
def EncoderInput.ofInstr (i : Instr) : EncoderInput :=
  match i with
  | .add a b dest => ⟨0, a.val, b.val, dest.toNat, 0⟩
  | .nor a b dest => ⟨1, a.val, b.val, dest.toNat, 0⟩
  | .lw a b raw16 => ⟨2, a.val, b.val, 0, raw16.toInt⟩
  | .sw a b raw16 => ⟨3, a.val, b.val, 0, raw16.toInt⟩
  | .beq a b raw16 => ⟨4, a.val, b.val, 0, raw16.toInt⟩
  | .jalr a b => ⟨5, a.val, b.val, 0, 0⟩
  | .halt => ⟨6, 0, 0, 0, 0⟩
  | .noop => ⟨7, 0, 0, 0, 0⟩

/-- The displacement an assembler stores for a `beq` at address `line` to the label address `label`
(30_encoding.md R71). -/
def beqDisplacement (label line : Int) : Int := label - line - 1

end Sys2Proof
end

