-- ==== Sys2Proof/Machine/Fetch.lean ====
section
/-! DEFINITION. The front of a step: the range check, the fetch and the dispatch, in the order of the fault priority
(40_step_cycle.md R82 to R84, 60_exceptions.md R148). -/

namespace Sys2Proof.Machine

/-- A fault to be raised: its cause and the info the record takes (60_exceptions.md R147). -/
structure Raise where
  cause : FaultCause
  info : Int
deriving DecidableEq, Repr

/-- Fetch: `mem[pc]`, after the check `0 <= pc <= 65535`, whose failure is `PCOutOfRange(pc)` (40_step_cycle.md R82,
60_exceptions.md R145). Memory is read as the previous step left it (20_memory.md R42), and nothing else is read (R43). -/
def State.fetch (s : State) : Except Raise Word :=
  if inMemory s.pc then .ok s.fetchedWord else .error ⟨.pcOutOfRange, s.pc⟩

/-- Fetch and dispatch: the instruction to execute, or `PCOutOfRange(pc)`, or `UnsupportedOpcode(w)`
(40_step_cycle.md R82, R84; 60_exceptions.md R142, R145). -/
def State.nextInstr (s : State) : Except Raise Instr :=
  match s.fetch with
  | .error r => .error r
  | .ok w =>
    match dispatch w with
    | none => .error ⟨.unsupportedOpcode, unsigned w⟩
    | some i => .ok i

/-- The state whose next fetch gives the word `w`: the word stored at the pc, and the two things a fetch needs, a Running
core and a pc inside the memory (log 8). -/
def State.placeWord (s : State) (w : Word) : State :=
  { s with
    run := .running
    pc := if inMemory s.pc then s.pc else 0
    mem := s.mem.put (if inMemory s.pc then s.pc.toNat else 0) w }

end Sys2Proof.Machine
end

