-- ==== Sys2Proof/Machine/Step.lean ====
section
/-! DEFINITION. The one transition of the core (40_step_cycle.md R80). -/

namespace Sys2Proof.Machine

/-- One clock cycle with `rst = 0`. Running: one step, which commits or takes one fault (40_step_cycle.md §8). Halted and
Faulted: the core takes no step and no state changes (R81, 10_state.md R19; log 4). -/
def step (s : State) : Host.Outcome State Fault Refusal :=
  match s.run with
  | .running =>
    match s.nextInstr with
    | .error r => .next (s.takeFault r.cause r.info)
    | .ok i => exec i s
  | .halted => .next s
  | .faulted => .next s

/-- The state with one instruction word, numbered as spec/opcode_table.json numbers its bits, stored where `step` fetches
its next instruction. An instruction is one 32-bit word (30_encoding.md R50), so the bits above `nbits` are 0. -/
def State.withFetchWord (s : State) (_nbits w : Nat) : State := s.placeWord (BitVec.ofNat 32 w)

end Sys2Proof.Machine
end

