-- ==== Sys2Proof/Machine/Launch.lean ====
section
/-! DEFINITION. What the host does to the core: the reset input, one clock edge, and loading an image before the release of
reset (70_reset_and_hazards.md R170, R171, R176; 20_memory.md R45, R46). -/

namespace Sys2Proof.Machine

/-- One rising clock edge: with `rst = 1` the core state takes its reset values, whatever state it was in, and no step is
taken; with `rst = 0` the core steps (10_state.md R27, 70_reset_and_hazards.md R170; decision D17, log 15). -/
def clockEdge (rst : Bool) (s : State) : Host.Outcome State Fault Refusal :=
  if rst then .next s.resetCore else step s

/-- The word of one line of the machine-code file: `trunc_32(n)` for a signed 32-bit `n`; the host refuses any other line
(20_memory.md R46; decision D16, log 17). The same conversion gives a `.fill` literal (30_encoding.md R72). -/
def lineToWord (n : Int) : Option Word := if -2 ^ 31 ≤ n ∧ n ≤ 2 ^ 31 - 1 then some (trunc32 n) else none

/-- The image of a machine-code file, given the integers of its lines in order: line `i`, counting from 0, is `image[i]`, and
one line that is refused refuses the whole file (20_memory.md R46; decision D16, log 17). -/
def linesToImage : List Int → Option (List Word)
  | [] => some []
  | n :: rest =>
    match lineToWord n, linesToImage rest with
    | some w, some image => some (w :: image)
    | some _, none => none
    | none, _ => none

/-- The memory with the words of a list at an address and upward. -/
def Memory.putAll : Memory → Nat → List Word → Memory
  | m, _, [] => m
  | m, at_, w :: rest => Memory.putAll (m.put at_ w) (at_ + 1) rest

/-- Loading: `mem[i] = image[i]` for every `i` below the image's length; an image of more than 65536 words is refused
(20_memory.md R45; decision D15, log 17). Words above the image keep what they held (70_reset_and_hazards.md R171). -/
def State.loadImage (s : State) (image : List Word) : Option State :=
  if image.length ≤ Config.memWords then some { s with mem := s.mem.putAll 0 image } else none

/-- The launch: the host holds `rst`, writes the image, and releases `rst` (70_reset_and_hazards.md R171). -/
def State.launch (s : State) (image : List Word) : Option State := s.resetCore.loadImage image

/-- The launch from a machine-code file: the host refuses it, and the core never starts, when a line or the length of the image
is refused (20_memory.md R45, R46, 70_reset_and_hazards.md R176; log 17). -/
def State.launchFile (s : State) (lines : List Int) : Option State :=
  match linesToImage lines with
  | some image => s.launch image
  | none => none

end Sys2Proof.Machine
end

