-- ==== Sys2Proof/Machine/Ports.lean ====
section
/-! DEFINITION. The output ports of the core (10_state.md R27; decision D18) and the codes they carry, as functions of the
state: what the host and the memory array see, which changes nothing (60_exceptions.md R156). -/

namespace Sys2Proof.Machine

/-- The 2-bit encoding of `run`; 3 is unused (10_state.md R22; decision D11). -/
def RunState.code : RunState → BitVec 2
  | .running => 0
  | .halted => 1
  | .faulted => 2

/-- The 3-bit code of a cause; 6 and 7 are unused (60_exceptions.md R141; decision D11). -/
def FaultCause.code : FaultCause → BitVec 3
  | .noFault => 0
  | .unsupportedOpcode => 1
  | .invalidRegister => 2
  | .offsetRange => 3
  | .pcOutOfRange => 4
  | .memoryBounds => 5

/-- The port `halted`. -/
def State.haltedPort (s : State) : Bool := decide (s.run = .halted)

/-- The port `faulted`. -/
def State.faultedPort (s : State) : Bool := decide (s.run = .faulted)

/-- The port `fault_cause`. -/
def State.faultCausePort (s : State) : BitVec 3 := s.faultCause.code

/-- The port `fault_pc`. -/
def State.faultPcPort (s : State) : BitVec 32 := BitVec.ofInt 32 s.faultPc

/-- The port `fault_info`, 33 bits signed (90_conflicts.md C12). -/
def State.faultInfoPort (s : State) : BitVec 33 := BitVec.ofInt 33 s.faultInfo

/-- The port `dbg_pc`. -/
def State.dbgPcPort (s : State) : BitVec 32 := BitVec.ofInt 32 s.pc

/-- The port `dbg_rdata` for the register that `dbg_raddr` names. -/
def State.dbgRdataPort (s : State) (raddr : RegIdx) : Word := s.reg raddr

/-- The port `icount`, of the implementation's choice of `width`, at least 32 bits: a hardware counter of finite width wraps
(10_state.md R27; log 19). -/
def State.icountPort (s : State) (width : Nat) (_atLeast32 : 32 ≤ width) : BitVec width := BitVec.ofNat width s.icount

/-- The port `i_addr`, `pc[15:0]`, where it is valid: the range comparator passes. -/
def State.iAddrPort (s : State) : Option (BitVec 16) :=
  if inMemory s.pc then some (BitVec.ofInt 16 s.pc) else none

/-- One access at the data port: `d_addr`, `d_we`, and `d_wdata` when it is a write. -/
structure DataAccess where
  addr : BitVec 16
  we : Bool
  wdata : Word
deriving DecidableEq, Repr

/-- The access at the effective address of a `lw` or `sw`, valid where the bounds check passes: `d_addr` is `ea[15:0]` and
`d_wdata` is `x[b]`, which a `lw` does not use (10_state.md R27). -/
def State.dataAccess? (s : State) (regA regB : RegIdx) (raw16 : BitVec 16) (we : Bool) : Option DataAccess :=
  if inMemory (s.effectiveAddress regA raw16) then
    some ⟨BitVec.ofInt 16 (s.effectiveAddress regA raw16), we, s.reg regB⟩
  else none

/-- The access that an instruction makes at the data port in a cycle with the reset input `rst`. `d_we` is 1 only for a `sw`
in a cycle with `rst = 0`, since no step is taken and nothing commits while `rst = 1` (10_state.md R27,
70_reset_and_hazards.md R170). -/
def State.accessOf (s : State) (rst : Bool) (i : Instr) : Option DataAccess :=
  match i with
  | .add _ _ _ => none
  | .nor _ _ _ => none
  | .lw regA regB raw16 => s.dataAccess? regA regB raw16 false
  | .sw regA regB raw16 => s.dataAccess? regA regB raw16 (!rst)
  | .beq _ _ _ => none
  | .jalr _ _ => none
  | .halt => none
  | .noop => none

/-- The data port in the cycle that starts in this state with the reset input `rst`, where its address is valid: a Running
core whose instruction is a `lw` or a `sw` with its effective address in bounds (10_state.md R27; log 20). -/
def State.dataPort (s : State) (rst : Bool) : Option DataAccess :=
  match s.run with
  | .running =>
    match s.nextInstr with
    | .error _ => none
    | .ok i => s.accessOf rst i
  | .halted => none
  | .faulted => none

end Sys2Proof.Machine
end

