-- ==== Sys2Proof/Safety.lean ====
section
/-! DEFINITION. What claims about the machine are said in: the end of a run, the frames, and the invariant. -/

namespace Sys2Proof.Machine

/-- The verdict at the end of a run: success iff Halted, error iff Faulted, none while Running (40_step_cycle.md R90,
70_reset_and_hazards.md R176). -/
def State.verdict (s : State) : Option Bool :=
  match s.run with
  | .running => none
  | .halted => some true
  | .faulted => some false

/-- A signed 32-bit integer (00_scope.md R4 `PC_WIDTH`). -/
def fitsSigned32 (n : Int) : Prop := -2 ^ 31 ≤ n ∧ n ≤ 2 ^ 31 - 1

/-- Every memory word is the same. -/
def SameMemory (s t : State) : Prop := ∀ n, t.memWord n = s.memWord n

/-- Every register is the same. -/
def SameRegs (s t : State) : Prop := ∀ r, t.reg r = s.reg r

/-- Every register but one is the same. -/
def SameRegsBut (d : RegIdx) (s t : State) : Prop := ∀ r, r ≠ d → t.reg r = s.reg r

/-- The fault record is the same. -/
def SameRecord (s t : State) : Prop :=
  t.faultCause = s.faultCause ∧ t.faultPc = s.faultPc ∧ t.faultInfo = s.faultInfo

/-- What every committed step but that of a `halt` does beside its own effect: `icount` counts it, the run state and the
fault record stay (40_step_cycle.md R89). -/
def Committed (s t : State) : Prop := t.icount = s.icount + 1 ∧ t.run = s.run ∧ SameRecord s t

/-- What a faulting step does, all of it (60_exceptions.md R149). -/
def FaultTaken (cause : FaultCause) (info : Int) (s t : State) : Prop :=
  t.run = .faulted ∧ t.faultCause = cause ∧ t.faultPc = s.pc ∧ t.faultInfo = info ∧
    t.pc = s.pc ∧ SameRegs s t ∧ SameMemory s t ∧ t.icount = s.icount

/-- The register that an instruction writes, if it names one (10_state.md R14, the column "writes"). -/
def writtenReg (i : Instr) : Option RegIdx :=
  match i with
  | .add _ _ dest => some (Fin.ofNat 8 dest.toNat)
  | .nor _ _ dest => some (Fin.ofNat 8 dest.toNat)
  | .lw _ b _ => some b
  | .sw _ _ _ => none
  | .beq _ _ _ => none
  | .jalr _ b => some b
  | .halt => none
  | .noop => none

/-- The registers that an instruction reads (10_state.md R14, the column "reads"). A `jalr` reads `x[a]` after its link write to
`x[b]`, so with `a = b` it reads no old register. -/
def readRegs (i : Instr) : List RegIdx :=
  match i with
  | .add a b _ => [a, b]
  | .nor a b _ => [a, b]
  | .lw a _ _ => [a]
  | .sw a b _ => [a, b]
  | .beq a b _ => [a, b]
  | .jalr a b => if a = b then [] else [a]
  | .halt => []
  | .noop => []

/-- A well-formed instruction with its register numbers renamed (10_state.md R12, R13). -/
def renameRegs (f : RegIdx → RegIdx) (i : Instr) : Instr :=
  match i with
  | .add a b dest => .add (f a) (f b) (BitVec.ofNat 16 (f (Fin.ofNat 8 dest.toNat)).val)
  | .nor a b dest => .nor (f a) (f b) (BitVec.ofNat 16 (f (Fin.ofNat 8 dest.toNat)).val)
  | .lw a b raw16 => .lw (f a) (f b) raw16
  | .sw a b raw16 => .sw (f a) (f b) raw16
  | .beq a b raw16 => .beq (f a) (f b) raw16
  | .jalr a b => .jalr (f a) (f b)
  | .halt => .halt
  | .noop => .noop

/-- The same state with the contents of its registers moved: register `f r` of the second holds what `r` of the first does. -/
def Renamed (f : RegIdx → RegIdx) (s t : State) : Prop := t = { s with regs := t.regs } ∧ ∀ r, t.reg (f r) = s.reg r

/-- The fault record is clear (60_exceptions.md R141, code 0). -/
def State.recordClear (s : State) : Prop := s.faultCause = .noFault ∧ s.faultPc = 0 ∧ s.faultInfo = 0

/-- What the info of the record says, by the cause (60_exceptions.md R147): the illegal word, the pc or the effective address
that is out of range. No cause code is `OffsetRange`, and none is `noFault`. -/
def State.recordMeaningful (s : State) : Prop :=
  match s.faultCause with
  | .noFault => False
  | .unsupportedOpcode => 2 ^ 25 ≤ s.faultInfo ∧ s.faultInfo < 2 ^ 32
  | .invalidRegister => 8 ≤ s.faultInfo ∧ s.faultInfo < 2 ^ 23
  | .offsetRange => False
  | .pcOutOfRange => s.faultInfo = s.faultPc ∧ inMemory s.faultInfo = false
  | .memoryBounds =>
    -2 ^ 31 - 32768 ≤ s.faultInfo ∧ s.faultInfo ≤ 2 ^ 31 + 32766 ∧ inMemory s.faultInfo = false

/-- The fault record's discipline (10_state.md R20): clear while the core is not Faulted; once it is, `fault_pc` is the pc and
the info is what the cause says. -/
def State.recordOk (s : State) : Prop :=
  match s.run with
  | .running => s.recordClear
  | .halted => s.recordClear
  | .faulted => s.faultPc = s.pc ∧ s.recordMeaningful

/-- The invariant: the memory is in canonical form, the pc and the recorded pc are signed 32-bit integers
(10_state.md R15, R17), and the fault record keeps its discipline (R20). -/
def State.Inv (s : State) : Prop :=
  s.mem.wf ∧ fitsSigned32 s.pc ∧ fitsSigned32 s.faultPc ∧ s.recordOk

/-- A Halted core stands one word after a `halt` (40_step_cycle.md R90: "`pc` is the address of the `halt` plus 1"). -/
def State.haltBehind (s : State) : Prop :=
  s.run = .halted →
    1 ≤ s.pc ∧ s.pc ≤ 65536 ∧ dispatch (s.memWord (s.pc - 1).toNat) = some .halt ∧ 1 ≤ s.icount

end Sys2Proof.Machine
end

