-- ==== Sys2Proof/Certificates/Slice0/Obligations.lean ====
section
/-! DEFINITION. The statements for the provers. Register values, offsets and fields of words are said through Lean's own
BitVec operations (toNat, toInt, getLsbD, extractLsb), not through the model's helpers. -/

open Sys2Proof Sys2Proof.Machine

/-! ## Reset, launch and the invariant -/

/-- What reset leaves (10_state.md R25; `run`, the record and `icount` by the spec's decisions D13 and D17, memory by D14): every
core field at its value, and every memory word at the free value MEM_INIT (log 2), so it holds for every such value. -/
def Obligations.ResetStateValues : Prop :=
  State.reset.pc = 0 ∧ (∀ r, State.reset.reg r = 0) ∧ State.reset.run = .running ∧
    State.reset.faultCause = .noFault ∧ State.reset.faultPc = 0 ∧ State.reset.faultInfo = 0 ∧
    State.reset.icount = 0 ∧ (∀ n, State.reset.memWord n = Config.memInit n) ∧
    State.reset.fetch = .ok (Config.memInit 0)

/-- The reset input (70_reset_and_hazards.md R170, by the spec's decision D17): from any state, Halted and Faulted too, a clock
edge with `rst = 1` gives the reset values, keeps memory, and leaves a core whose first fetch is from address 0; with
`rst = 0` the edge is one step. -/
def Obligations.ResetInputRestartsCoreAndKeepsMemory : Prop :=
  ∀ s : State,
    (∃ t, clockEdge true s = .next t ∧ t.pc = 0 ∧ (∀ r, t.reg r = 0) ∧ t.run = .running ∧
      t.faultCause = .noFault ∧ t.faultPc = 0 ∧ t.faultInfo = 0 ∧ t.icount = 0 ∧ SameMemory s t ∧
      t.fetch = .ok (s.memWord 0)) ∧
    clockEdge false s = step s

/-- Launch (70_reset_and_hazards.md R171, 20_memory.md R45; the refusal by the spec's decision D15): the image stands from address 0
upward, every word above it is what it was, and the core has its reset values; an image of more than 65536 words is refused. -/
def Obligations.LaunchPlacesImageFromAddressZero : Prop :=
  ∀ (s : State) (image : List Word),
    (image.length ≤ 65536 →
      ∃ t, s.launch image = some t ∧ (∀ n (h : n < image.length), t.memWord n = image[n]) ∧
        (∀ n, image.length ≤ n → t.memWord n = s.memWord n) ∧
        t.pc = 0 ∧ (∀ r, t.reg r = 0) ∧ t.run = .running ∧ t.faultCause = .noFault ∧ t.faultPc = 0 ∧
        t.faultInfo = 0 ∧ t.icount = 0 ∧ (s.mem.wf → t.mem.wf)) ∧
    (65536 < image.length → s.launch image = none)

/-- A line of the machine-code file (20_memory.md R46; the refusal by the spec's decision D16): a signed 32-bit integer becomes the
word that reads as that integer, any other integer is refused. -/
def Obligations.ImageLineBecomesItsTwosComplementWord : Prop :=
  ∀ n : Int,
    if -2 ^ 31 ≤ n ∧ n ≤ 2 ^ 31 - 1 then ∃ w, lineToWord n = some w ∧ w.toInt = n ∧ (w.toNat : Int) = n % 2 ^ 32
    else lineToWord n = none

/-- The invariant holds right after reset (10_state.md R25). -/
def Obligations.InvariantHoldsAtReset : Prop := State.reset.Inv ∧ State.reset.haltBehind

/-- Every step keeps the invariant: canonical memory, a pc and a recorded pc that are signed 32-bit integers
(10_state.md R15, R17: the pc never overflows 32 bits), and the fault record's discipline (R20). -/
def Obligations.EveryStepKeepsInvariant : Prop := ∀ s t : State, s.Inv → step s = .next t → t.Inv

/-- Every step keeps: a Halted core stands one word after a `halt` that it counted (40_step_cycle.md R90). -/
def Obligations.HaltedCoreStandsAfterHalt : Prop :=
  ∀ s t : State, s.haltBehind → step s = .next t → t.haltBehind

/-! ## Encoding -/

/-- Decode and encode agree (30_encoding.md R67(a)), for every well-formed instruction, R-format destination 0 included (which
the spec marks as derived). -/
def Obligations.DecodeOfEncodeIsTheInstruction : Prop :=
  ∀ i : Instr, i.wellFormed = true → decode (encode i) = .ok i

/-- The other direction (30_encoding.md R67(b), marked derived there): a legal word is the encoding of what it decodes to exactly
when the bits its format ignores are 0. -/
def Obligations.EncodeOfDecodeIsTheWordIfCanonical : Prop :=
  ∀ (w : Word) (i : Instr), decode w = .ok i →
    (encode i = w ↔
      (w.extractLsb 24 22 = 5 → w.extractLsb 15 0 = 0) ∧
      (w.extractLsb 24 22 = 6 ∨ w.extractLsb 24 22 = 7 → w.extractLsb 21 0 = 0))

/-- The verdict of the decoder on every 32-bit word (30_encoding.md R63, R61; bits 31:25 by decision D1, bits 15:3 of the R format
by D2, the ignored bits of J and O by D3), with every field at its place (R51). -/
def Obligations.DecodeVerdictOnEveryWord : Prop :=
  ∀ (w : Word) (a b : RegIdx) (raw16 : BitVec 16),
    a.val = (w.extractLsb 21 19).toNat → b.val = (w.extractLsb 18 16).toNat → raw16 = w.extractLsb 15 0 →
    if w.extractLsb 31 25 ≠ 0 then decode w = .error .unsupportedOpcode
    else
      (w.extractLsb 24 22 = 0 →
        decode w = if raw16.toNat ≤ 7 then .ok (.add a b raw16) else .error .invalidRegister) ∧
      (w.extractLsb 24 22 = 1 →
        decode w = if raw16.toNat ≤ 7 then .ok (.nor a b raw16) else .error .invalidRegister) ∧
      (w.extractLsb 24 22 = 2 → decode w = .ok (.lw a b raw16)) ∧
      (w.extractLsb 24 22 = 3 → decode w = .ok (.sw a b raw16)) ∧
      (w.extractLsb 24 22 = 4 → decode w = .ok (.beq a b raw16)) ∧
      (w.extractLsb 24 22 = 5 → decode w = .ok (.jalr a b)) ∧
      (w.extractLsb 24 22 = 6 → decode w = .ok .halt) ∧
      (w.extractLsb 24 22 = 7 → decode w = .ok .noop)

/-- Words of the spec's tables decode to the instructions they stand for (95_test_vectors.md, tables D and E). -/
def Obligations.SampleWordsDecode : Prop :=
  decode 0x000A0003#32 = .ok (.add 1 2 3) ∧ decode 0x004A0003#32 = .ok (.nor 1 2 3) ∧
    decode 0x00BFFFFF#32 = .ok (.lw 7 7 0xFFFF) ∧ decode 0x00EEFFFC#32 = .ok (.sw 5 6 0xFFFC) ∧
    decode 0x0100FFFC#32 = .ok (.beq 0 0 0xFFFC) ∧ decode 0x014AFFFF#32 = .ok (.jalr 1 2) ∧
    decode 0x01BFFFFF#32 = .ok .halt ∧ decode 0x01C00000#32 = .ok .noop

/-- The encoder's checks (30_encoding.md R65; the order of the two errors by the spec's decision D23): the formats, what each
checks, and which error is reported. The R format alone refuses destination 0. -/
def Obligations.EncoderRefusesWhatIsOutOfRange : Prop :=
  ∀ e : EncoderInput,
    let regsOk := 0 ≤ e.a ∧ e.a ≤ 7 ∧ 0 ≤ e.b ∧ e.b ≤ 7
    (e.op.val ≤ 1 →
      if regsOk ∧ 0 ≤ e.d ∧ e.d ≤ 7 ∧ e.d ≠ 0 then ∃ w, encoderBlock e = .ok w
      else encoderBlock e = .error .invalidRegister) ∧
    (2 ≤ e.op.val ∧ e.op.val ≤ 4 →
      if regsOk then
        if -32768 ≤ e.off ∧ e.off ≤ 32767 then ∃ w, encoderBlock e = .ok w
        else encoderBlock e = .error .offsetRange
      else encoderBlock e = .error .invalidRegister) ∧
    (e.op.val = 5 → if regsOk then ∃ w, encoderBlock e = .ok w else encoderBlock e = .error .invalidRegister) ∧
    (6 ≤ e.op.val → ∃ w, encoderBlock e = .ok w)

/-- Packing (30_encoding.md R66): the four formulas as numbers, which leave every other bit 0, on every input that passes the
checks; the same formulas with R-format `d = 0`; and the error, with no word, otherwise. -/
def Obligations.EncoderPacksFieldsByFormula : Prop :=
  (∀ (e : EncoderInput) (w : Word), encoderBlock e = .ok w →
    (w.toNat : Int) =
      if e.op.val ≤ 1 then (e.op.val : Int) * 2 ^ 22 + e.a * 2 ^ 19 + e.b * 2 ^ 16 + e.d
      else if e.op.val ≤ 4 then (e.op.val : Int) * 2 ^ 22 + e.a * 2 ^ 19 + e.b * 2 ^ 16 + e.off % 2 ^ 16
      else if e.op.val = 5 then (5 : Int) * 2 ^ 22 + e.a * 2 ^ 19 + e.b * 2 ^ 16
      else (e.op.val : Int) * 2 ^ 22) ∧
  (∀ (op : Fin 8) (a b : RegIdx) (off : Int), op.val ≤ 1 →
    (EncoderInput.pack ⟨op, a.val, b.val, 0, off⟩).toNat = op.val * 2 ^ 22 + a.val * 2 ^ 19 + b.val * 2 ^ 16) ∧
  (EncoderInput.pack ⟨0, 1, 2, 0, 0⟩).toNat = 655360 ∧
  (∀ (e : EncoderInput), encoderBlock e = match e.error? with | some err => .error err | none => .ok e.pack)

/-- The two views of the encoder agree (30_encoding.md R65, R66, R76): for an instruction with its fields in range the block gives
the packed word, but for R-format destination 0, which it refuses and the core executes. -/
def Obligations.EncoderBlockGivesTheInstructionsWord : Prop :=
  ∀ i : Instr, i.wellFormed = true →
    encoderBlock (EncoderInput.ofInstr i) =
      match i with
      | .add _ _ dest => if dest = 0 then .error .invalidRegister else .ok (encode i)
      | .nor _ _ dest => if dest = 0 then .error .invalidRegister else .ok (encode i)
      | _ => .ok (encode i)

/-- What the encoder emits decodes to an instruction with the fields it was given (30_encoding.md R67(a), (c)): so two inputs of
one word have the same opcode and the same fields of their format. -/
def Obligations.EncodedWordDecodesToItsInputs : Prop :=
  ∀ (e : EncoderInput) (w : Word), encoderBlock e = .ok w →
    ∃ i, decode w = .ok i ∧ i.opcode = e.op.val ∧
      (e.op.val ≤ 1 → EncoderInput.ofInstr i = { e with off := 0 }) ∧
      (2 ≤ e.op.val ∧ e.op.val ≤ 4 → EncoderInput.ofInstr i = { e with d := 0 }) ∧
      (e.op.val = 5 → EncoderInput.ofInstr i = { e with d := 0, off := 0 })

/-! ## Each instruction: its result, its frame, and that it completes -/

/-- `add` (41_alu_add_nor.md R100): the low 32 bits of the sum, under the unsigned and the signed reading; both operands are read
before the write. The wrap is the spec's decision D4 (log 11). -/
def Obligations.AddWritesWrappedSum : Prop :=
  ∀ (s : State) (a b d : RegIdx) (dest : BitVec 16), dest.toNat = d.val →
    ∃ t, exec (.add a b dest) s = .next t ∧
      (t.reg d).toNat = ((s.reg a).toNat + (s.reg b).toNat) % 2 ^ 32 ∧
      (t.reg d).toInt = ((s.reg a).toInt + (s.reg b).toInt).bmod (2 ^ 32) ∧
      t.pc = s.pc + 1 ∧ SameRegsBut d s t ∧ SameMemory s t ∧ Committed s t

/-- `nor` (41_alu_add_nor.md R101): every one of the 32 bits is 1 iff both inputs are 0. The destination is the whole 16-bit field
(decision D2, log 9). -/
def Obligations.NorWritesBitwiseNor : Prop :=
  ∀ (s : State) (a b d : RegIdx) (dest : BitVec 16), dest.toNat = d.val →
    ∃ t, exec (.nor a b dest) s = .next t ∧
      (∀ k, k < 32 → (t.reg d).getLsbD k = (!(s.reg a).getLsbD k && !(s.reg b).getLsbD k)) ∧
      t.pc = s.pc + 1 ∧ SameRegsBut d s t ∧ SameMemory s t ∧ Committed s t

/-- `InvalidRegister` (60_exceptions.md R143, by the spec's decision D2, with the whole entry D10; log 6, log 9, log 14): `add` and `nor`
with any of bits 15:3 of their word set record the word at the pc and change nothing else, and so does the step that fetches
such a word. -/
def Obligations.RFormatReservedBitsRaiseInvalidRegister : Prop :=
  ∀ (s : State) (a b : RegIdx) (dest : BitVec 16) (w : Word), 7 < dest.toNat → w = s.memWord s.pc.toNat →
    (∃ t, exec (.add a b dest) s = .next t ∧ FaultTaken .invalidRegister w.toNat s t) ∧
    (∃ t, exec (.nor a b dest) s = .next t ∧ FaultTaken .invalidRegister w.toNat s t) ∧
    (s.run = .running → 0 ≤ s.pc → s.pc ≤ 65535 →
      dispatch w = some (.add a b dest) ∨ dispatch w = some (.nor a b dest) →
      ∃ t, step s = .next t ∧ FaultTaken .invalidRegister w.toNat s t)

/-- `lw` (42_load_store.md R111): the encoding, the load of the whole word at the effective address into `x[b]` (address from the
old `x[a]`), and the fault, which leaves registers and pc. By the spec's decisions: the exact sum D9 (log 18), the fault's whole
entry D10 (log 14), the count D13 (log 19). -/
def Obligations.LwLoadsTheWordAtItsAddress : Prop :=
  ∀ (s : State) (a b : RegIdx) (raw16 : BitVec 16) (ea : Int), ea = s.effectiveAddress a raw16 →
    ((encode (.lw a b raw16)).toNat : Int) = 2 * 2 ^ 22 + a.val * 2 ^ 19 + b.val * 2 ^ 16 + raw16.toInt % 2 ^ 16 ∧
    dispatch (encode (.lw a b raw16)) = some (.lw a b raw16) ∧
    ea = (s.reg a).toInt + raw16.toInt ∧
    (0 ≤ ea ∧ ea ≤ 65535 →
      ∃ t, exec (.lw a b raw16) s = .next t ∧
        t.reg b = s.memWord ea.toNat ∧ t.pc = s.pc + 1 ∧ SameRegsBut b s t ∧ SameMemory s t ∧ Committed s t) ∧
    (ea < 0 ∨ 65535 < ea → ∃ t, exec (.lw a b raw16) s = .next t ∧ FaultTaken .memoryBounds ea s t)

/-- `sw` (42_load_store.md R112): the encoding, the store of all 32 bits of `x[b]` at the effective address and nowhere else, and the
fault, which leaves memory and pc; a store to `npc` is what the next fetch returns. By the spec's decisions: the exact sum D9
(log 18), the fault's whole entry D10 (log 14), the count D13 (log 19). -/
def Obligations.SwStoresOneWordAtItsAddress : Prop :=
  ∀ (s : State) (a b : RegIdx) (raw16 : BitVec 16) (ea : Int), ea = s.effectiveAddress a raw16 →
    ((encode (.sw a b raw16)).toNat : Int) = 3 * 2 ^ 22 + a.val * 2 ^ 19 + b.val * 2 ^ 16 + raw16.toInt % 2 ^ 16 ∧
    dispatch (encode (.sw a b raw16)) = some (.sw a b raw16) ∧
    ea = (s.reg a).toInt + raw16.toInt ∧
    (0 ≤ ea ∧ ea ≤ 65535 →
      ∃ t, exec (.sw a b raw16) s = .next t ∧
        t.memWord ea.toNat = s.reg b ∧ (∀ n, n ≠ ea.toNat → t.memWord n = s.memWord n) ∧
        t.pc = s.pc + 1 ∧ SameRegs s t ∧ Committed s t ∧ (ea = s.pc + 1 → t.fetch = .ok (s.reg b))) ∧
    (ea < 0 ∨ 65535 < ea → ∃ t, exec (.sw a b raw16) s = .next t ∧ FaultTaken .memoryBounds ea s t)

/-- `beq` (43_control_transfer.md R120): the encoding, the branch to `npc + offset` on equality of all 32 bits, nothing written; the
target is not checked, and the next step of a Running core raises PCOutOfRange when it lies outside the memory; from a
fetchable address it lies in -32767 to 98303; with `a = b` the branch is always taken. By the spec's decisions: the next step's
whole fault entry D10 (log 14), the guard of the fetch and its bound D6 and D7 (log 12, log 13), the count D13 (log 19). -/
def Obligations.BeqBranchesOnEqualRegisters : Prop :=
  ∀ (s : State) (a b : RegIdx) (raw16 : BitVec 16),
    ((encode (.beq a b raw16)).toNat : Int) = 4 * 2 ^ 22 + a.val * 2 ^ 19 + b.val * 2 ^ 16 + raw16.toInt % 2 ^ 16 ∧
    dispatch (encode (.beq a b raw16)) = some (.beq a b raw16) ∧
    ∃ t, exec (.beq a b raw16) s = .next t ∧
      (s.reg a = s.reg b → t.pc = s.pc + 1 + raw16.toInt) ∧ (s.reg a ≠ s.reg b → t.pc = s.pc + 1) ∧
      (a = b → t.pc = s.pc + 1 + raw16.toInt) ∧
      SameRegs s t ∧ SameMemory s t ∧ Committed s t ∧
      (0 ≤ s.pc ∧ s.pc ≤ 65535 → -32767 ≤ t.pc ∧ t.pc ≤ 98303) ∧
      (s.run = .running → t.pc < 0 ∨ 65535 < t.pc → ∃ u, step t = .next u ∧ FaultTaken .pcOutOfRange t.pc t u)

/-- `jalr` (43_control_transfer.md R121; 00_scope.md R8): the link write, then the jump through `x[a]` as it is AFTER that write; with
`a = b` it falls through (which the spec marks as derived). No memory; the target is not checked. -/
def Obligations.JalrLinksThenJumps : Prop :=
  ∀ (s : State) (a b : RegIdx),
    ∃ t, exec (.jalr a b) s = .next t ∧
      ((t.reg b).toNat : Int) = (s.pc + 1) % 2 ^ 32 ∧ t.pc = (t.reg a).toInt ∧
      (a ≠ b → t.pc = (s.reg a).toInt) ∧
      (a = b → 0 ≤ s.pc ∧ s.pc ≤ 65535 → t.pc = s.pc + 1) ∧
      SameRegsBut b s t ∧ SameMemory s t ∧ Committed s t

/-- `halt` (44_halt_noop.md R130): Halted after this step, pc advanced, the step counted, nothing else; no range check on the pc it
leaves (decision D6, log 12); every word from 0x01800000 to 0x01BFFFFF, and no other, is a `halt` (decision D3, log 10). -/
def Obligations.HaltStopsTheCore : Prop :=
  (∀ s : State, ∃ t, exec .halt s = .next t ∧
    t.run = .halted ∧ t.pc = s.pc + 1 ∧ t.icount = s.icount + 1 ∧ SameRecord s t ∧ SameRegs s t ∧ SameMemory s t ∧
    step t = .next t) ∧
  ∀ w : Word, dispatch w = some .halt ↔ 25165824 ≤ w.toNat ∧ w.toNat ≤ 29360127

/-- `noop` (44_halt_noop.md R131): pc advanced, the step counted, nothing else; at address 65535 it leaves 65536 and the next step
of a Running core raises PCOutOfRange; every word from 0x01C00000 to 0x01FFFFFF, and no other, is a `noop`
(decision D3, log 10). -/
def Obligations.NoopOnlyAdvancesThePc : Prop :=
  (∀ s : State, ∃ t, exec .noop s = .next t ∧
    t.pc = s.pc + 1 ∧ Committed s t ∧ SameRegs s t ∧ SameMemory s t ∧
    (s.run = .running → s.pc = 65535 → ∃ u, step t = .next u ∧ FaultTaken .pcOutOfRange 65536 t u)) ∧
  ∀ w : Word, dispatch w = some .noop ↔ 29360128 ≤ w.toNat ∧ w.toNat ≤ 33554431

/-! ## The step -/

/-- A step runs the decoded instruction (40_step_cycle.md R82, R84, R88): nothing stands around `exec`. -/
def Obligations.StepRunsTheDecodedInstruction : Prop :=
  ∀ (s : State) (i : Instr), s.run = .running → 0 ≤ s.pc → s.pc ≤ 65535 →
    (decode (s.memWord s.pc.toNat) = .ok i → step s = exec i s) ∧
    (dispatch (s.memWord s.pc.toNat) = some i → step s = exec i s)

/-- The step is total: every state has a next state, and no instruction ends in the host's fault or refusal (40_step_cycle.md R80;
log 4, log 5). -/
def Obligations.EveryStepAnswersANextState : Prop :=
  (∀ s : State, ∃ t, step s = .next t) ∧ ∀ (i : Instr) (s : State), ∃ t, exec i s = .next t

/-- Halted and Faulted are absorbing and are the two ends of a run (10_state.md R19, 40_step_cycle.md R81, R90, by the spec's decisions D12
and D22; log 4): success iff Halted, error iff Faulted, and after either any number of clock cycles leaves every field as it
is. -/
def Obligations.StoppedCoreNeverChanges : Prop :=
  ∀ s : State,
    (s.verdict = some true ↔ s.run = .halted) ∧ (s.verdict = some false ↔ s.run = .faulted) ∧
    (s.verdict ≠ none → ∀ k : Nat, Host.Core.run Sys2Proof.core k s = .next s)

/-- A run need not end (40_step_cycle.md R91): a Running core that stands on a branch to itself (a `beq` of a register with itself and
offset -1, 43_control_transfer.md R120) is still there after any number of steps, each of them counted. -/
def Obligations.SelfBranchNeverEnds : Prop :=
  ∀ (s : State) (a : RegIdx), s.run = .running → s.nextInstr = .ok (.beq a a 0xFFFF) →
    ∀ k : Nat, Host.Core.run Sys2Proof.core k s = .next { s with icount := s.icount + k }

/-- The fault of a step is the first condition that holds, in the order of 60_exceptions.md R148 (the spec's decision D21), with the
record of R147 (D10); a step for which none holds raises nothing and is counted. -/
def Obligations.FirstFailingCheckIsTheFault : Prop :=
  ∀ (s : State) (w : Word) (a : RegIdx) (ea : Int), s.run = .running → w = s.memWord s.pc.toNat →
    a.val = (w.extractLsb 21 19).toNat → ea = (s.reg a).toInt + (w.extractLsb 15 0).toInt →
    ∃ t, step s = .next t ∧
      if s.pc < 0 ∨ 65535 < s.pc then FaultTaken .pcOutOfRange s.pc s t
      else if w.extractLsb 31 25 ≠ 0 then FaultTaken .unsupportedOpcode w.toNat s t
      else if (w.extractLsb 24 22 = 0 ∨ w.extractLsb 24 22 = 1) ∧ w.extractLsb 15 3 ≠ 0 then
        FaultTaken .invalidRegister w.toNat s t
      else if (w.extractLsb 24 22 = 2 ∨ w.extractLsb 24 22 = 3) ∧ (ea < 0 ∨ 65535 < ea) then
        FaultTaken .memoryBounds ea s t
      else t.run ≠ .faulted ∧ t.icount = s.icount + 1 ∧ SameRecord s t

/-- A fetch outside the memory raises PCOutOfRange and does nothing else (60_exceptions.md R145, 40_step_cycle.md R82; the bound 65536 by the
spec's decision D7, log 13). -/
def Obligations.FetchOutsideMemoryRaisesPcOutOfRange : Prop :=
  ∀ s : State, s.run = .running → s.pc < 0 ∨ 65535 < s.pc →
    ∃ t, step s = .next t ∧ FaultTaken .pcOutOfRange s.pc s t

/-- A fetched word with any of bits 31:25 set raises UnsupportedOpcode, whatever its other bits (60_exceptions.md R142, by the
spec's decision D1, log 9). -/
def Obligations.HighBitsRaiseUnsupportedOpcode : Prop :=
  ∀ s : State, s.run = .running → 0 ≤ s.pc → s.pc ≤ 65535 → (s.memWord s.pc.toNat).extractLsb 31 25 ≠ 0 →
    ∃ t, step s = .next t ∧ FaultTaken .unsupportedOpcode (s.memWord s.pc.toNat).toNat s t

/-- MemoryBounds (60_exceptions.md R146): raised by `lw` and `sw` when the effective address is negative or above 65535, with the
exact address recorded and nothing written; and no other instruction records it. By the spec's decisions: the whole entry D10
(log 14), the cause's name D8 and the exact address D9 (log 18). -/
def Obligations.AccessOutsideMemoryRaisesMemoryBounds : Prop :=
  (∀ (s : State) (a b : RegIdx) (raw16 : BitVec 16) (ea : Int), ea = s.effectiveAddress a raw16 →
    ea < 0 ∨ 65535 < ea →
    (∃ t, exec (.lw a b raw16) s = .next t ∧ FaultTaken .memoryBounds ea s t) ∧
    (∃ t, exec (.sw a b raw16) s = .next t ∧ FaultTaken .memoryBounds ea s t)) ∧
  ∀ (s t : State) (i : Instr), exec i s = .next t → s.faultCause ≠ .memoryBounds → t.faultCause = .memoryBounds →
    ∃ (a b : RegIdx) (raw16 : BitVec 16), (i = .lw a b raw16 ∨ i = .sw a b raw16) ∧
      (s.effectiveAddress a raw16 < 0 ∨ 65535 < s.effectiveAddress a raw16)

/-- A step commits completely or changes nothing but the run state and the fault record (40_step_cycle.md R88, R89, 60_exceptions.md R149,
by the spec's decisions D10, log 14, and D13, log 19; 10_state.md R14, R21): a committed step runs the fetched instruction, is
counted, leaves the record, every register but the one that instruction names as written, and every word but the one at the
effective address of a fetched `sw`, which lies in the memory and takes `x[b]`; its next state is the one that instruction
answers, so the pc, the written register and the run state are as that instruction's own statement says. -/
def Obligations.StepCommitsWhollyOrOnlyFaults : Prop :=
  ∀ s t : State, s.run = .running → step s = .next t →
    (∃ cause info, cause ≠ .noFault ∧ cause ≠ .offsetRange ∧ FaultTaken cause info s t) ∨
    ∃ i, s.nextInstr = .ok i ∧ exec i s = .next t ∧ t.run ≠ .faulted ∧ t.icount = s.icount + 1 ∧ SameRecord s t ∧
      (t.run = .halted ↔ i = .halt) ∧
      (∀ r, writtenReg i ≠ some r → t.reg r = s.reg r) ∧
      match i with
      | .sw a b raw16 =>
        0 ≤ s.effectiveAddress a raw16 ∧ s.effectiveAddress a raw16 ≤ 65535 ∧
          t.memWord (s.effectiveAddress a raw16).toNat = s.reg b ∧
          ∀ n, n ≠ (s.effectiveAddress a raw16).toNat → t.memWord n = s.memWord n
      | _ => SameMemory s t

/-- OffsetRange is never recorded (40_step_cycle.md R87, 60_exceptions.md R144, derived there): a sign-extended 16-bit field is in range,
and no step writes that cause. -/
def Obligations.OffsetRangeIsNeverRecorded : Prop :=
  (∀ v : BitVec 16, sext32 v = v.toInt ∧ -32768 ≤ sext32 v ∧ sext32 v ≤ 32767) ∧
  ∀ s t : State, step s = .next t → s.faultCause ≠ .offsetRange → t.faultCause ≠ .offsetRange

/-- The pc after a step, instruction by instruction (10_state.md R16, 43_control_transfer.md R122(a)); a step that faults leaves it (R149,
decision D10). -/
def Obligations.PcAfterEachInstruction : Prop :=
  ∀ (s t : State) (i : Instr), s.run = .running → s.nextInstr = .ok i → step s = .next t →
    if t.run = .faulted then t.pc = s.pc
    else
      match i with
      | .beq a b raw16 => t.pc = if s.reg a = s.reg b then s.pc + 1 + raw16.toInt else s.pc + 1
      | .jalr a _ => t.pc = (t.reg a).toInt
      | _ => t.pc = s.pc + 1

/-! ## Registers and memory across instructions -/

/-- A register changes only where the instruction names it as the one it writes (10_state.md R14, the column "writes"). -/
def Obligations.OnlyTheNamedDestinationChanges : Prop :=
  ∀ (s t : State) (i : Instr) (r : RegIdx), exec i s = .next t → t.reg r ≠ s.reg r → writtenReg i = some r

/-- Register 0 is ordinary (10_state.md R13): 0 after reset; an instruction that names it as destination writes there what it would
write to any other register; it changes in no other way; and the encoder alone refuses it, for `add` and `nor` only. By the
spec's decisions: the wrap of `add` and the reading of `x[a]` in `jalr` D4 (log 11), the 16-bit destination D2 (log 9), the
effective address D9 (log 18). -/
def Obligations.RegisterZeroIsOrdinary : Prop :=
  State.reset.reg 0 = 0 ∧
  (∀ (s : State) (a b : RegIdx) (dest : BitVec 16) (d : RegIdx), dest.toNat = d.val →
    (∃ t u, exec (.add a b 0) s = .next t ∧ exec (.add a b dest) s = .next u ∧ t.reg 0 = u.reg d ∧
      t.reg 0 = s.reg a + s.reg b) ∧
    (∃ t u, exec (.nor a b 0) s = .next t ∧ exec (.nor a b dest) s = .next u ∧ t.reg 0 = u.reg d ∧
      t.reg 0 = ~~~(s.reg a ||| s.reg b))) ∧
  (∀ (s : State) (a : RegIdx) (raw16 : BitVec 16),
    0 ≤ s.effectiveAddress a raw16 → s.effectiveAddress a raw16 ≤ 65535 →
    ∃ t, exec (.lw a 0 raw16) s = .next t ∧ t.reg 0 = s.memWord (s.effectiveAddress a raw16).toNat) ∧
  (∀ (s : State) (a : RegIdx), ∃ t, exec (.jalr a 0) s = .next t ∧ ((t.reg 0).toNat : Int) = (s.pc + 1) % 2 ^ 32) ∧
  (∀ (s t : State) (i : Instr), exec i s = .next t → writtenReg i ≠ some 0 → t.reg 0 = s.reg 0) ∧
  (∀ (a b : RegIdx) (op : Fin 8) (off : Int), op.val ≤ 1 →
    encoderBlock ⟨op, a.val, b.val, 0, off⟩ = .error .invalidRegister) ∧
  (∀ (a : RegIdx) (off : Int), -32768 ≤ off → off ≤ 32767 → ∃ w, encoderBlock ⟨2, a.val, 0, 0, off⟩ = .ok w) ∧
  ∀ (a : RegIdx) (off : Int), ∃ w, encoderBlock ⟨5, a.val, 0, 0, off⟩ = .ok w

/-- `MemWrite` (20_memory.md R33): in range, the word becomes `v`, all 32 bits of it, and no other word changes; out of range, no
word changes and `sw` raises MemoryBounds; and it is used by `sw` only. By the spec's decisions: the fault's whole entry D10
(log 14), the bounds check at the exact address D8 and D9 (log 18), the count D13 (log 19). -/
def Obligations.MemoryWordsChangeOnlyByStores : Prop :=
  (∀ (s : State) (addr : Int) (v : Word),
    if 0 ≤ addr ∧ addr ≤ 65535 then
      ∃ t, s.memWrite addr v = some t ∧ t.memWord addr.toNat = v ∧ ∀ n, n ≠ addr.toNat → t.memWord n = s.memWord n
    else s.memWrite addr v = none) ∧
  (∀ (s : State) (a b : RegIdx) (raw16 : BitVec 16), s.memWrite (s.effectiveAddress a raw16) (s.reg b) = none →
    ∃ t, exec (.sw a b raw16) s = .next t ∧ SameMemory s t ∧
      FaultTaken .memoryBounds (s.effectiveAddress a raw16) s t) ∧
  (∀ (s u : State) (a b : RegIdx) (raw16 : BitVec 16), s.memWrite (s.effectiveAddress a raw16) (s.reg b) = some u →
    ∃ t, exec (.sw a b raw16) s = .next t ∧ SameMemory u t ∧ t.icount = s.icount + 1) ∧
  ∀ (s t : State) (i : Instr), exec i s = .next t → (∀ a b raw16, i ≠ .sw a b raw16) → SameMemory s t

/-- The effective address (42_load_store.md R110): an exact sum of signed numbers with its range, for which a 32-bit wrapped sum gives
the same verdict and, when legal, the same address (which the spec marks as derived; decision D9). -/
def Obligations.EffectiveAddressIsTheExactSum : Prop :=
  ∀ (s : State) (a : RegIdx) (raw16 : BitVec 16) (ea : Int), ea = s.effectiveAddress a raw16 →
    ea = (s.reg a).toInt + raw16.toInt ∧ -2 ^ 31 - 32768 ≤ ea ∧ ea ≤ 2 ^ 31 + 32766 ∧
    ((0 ≤ ea ∧ ea ≤ 65535) ↔
      0 ≤ (s.reg a + raw16.signExtend 32).toInt ∧ (s.reg a + raw16.signExtend 32).toInt ≤ 65535) ∧
    (0 ≤ ea ∧ ea ≤ 65535 → (s.reg a + raw16.signExtend 32).toInt = ea)

/-- A load after a store to the same place gives the stored word (20_memory.md R38(b), R32): through the same base and offset, into
any register. -/
def Obligations.LoadAfterStoreReadsTheStoredWord : Prop :=
  ∀ (s : State) (a b c : RegIdx) (raw16 : BitVec 16),
    0 ≤ s.effectiveAddress a raw16 → s.effectiveAddress a raw16 ≤ 65535 →
    ∃ t u, exec (.sw a b raw16) s = .next t ∧ exec (.lw a c raw16) t = .next u ∧ u.reg c = s.reg b ∧
      u.pc = s.pc + 2 ∧ u.icount = s.icount + 2

/-- Fetch and stores (20_memory.md R42, R44, derived there): a `sw` to the next address is seen by the very next fetch, and a `sw` to
its own address leaves the running instruction as it is and is what a later fetch of that address returns. -/
def Obligations.StoreIsSeenByTheNextFetch : Prop :=
  ∀ (s : State) (a b : RegIdx) (raw16 : BitVec 16), s.run = .running → s.nextInstr = .ok (.sw a b raw16) →
    (s.effectiveAddress a raw16 = s.pc + 1 → s.pc + 1 ≤ 65535 →
      ∃ t, step s = .next t ∧ t.pc = s.pc + 1 ∧ t.fetch = .ok (s.reg b)) ∧
    (s.effectiveAddress a raw16 = s.pc →
      ∃ t, step s = .next t ∧ t.pc = s.pc + 1 ∧ t.icount = s.icount + 1 ∧
        State.fetch { t with pc := s.pc } = .ok (s.reg b))

/-- A word that a step neither fetches nor loads does not matter to it (40_step_cycle.md R92, derived there): two states that differ in
that one word only step to states that differ in it at most. -/
def Obligations.UnreadWordDoesNotInfluenceTheStep : Prop :=
  ∀ (s s' t t' : State) (k : Nat),
    s' = { s with mem := s'.mem } → (∀ n, n ≠ k → s'.memWord n = s.memWord n) → s.pc ≠ k →
    (∀ a b raw16, s.nextInstr = .ok (.lw a b raw16) → s.effectiveAddress a raw16 ≠ k) →
    step s = .next t → step s' = .next t' →
    t' = { t with mem := t'.mem } ∧ ∀ n, n ≠ k → t'.memWord n = t.memWord n

/-- The `beq` displacement (30_encoding.md R71, 43_control_transfer.md R120): a `beq` at address `line` that holds the displacement of `label`
branches to `label`. -/
def Obligations.BeqDisplacementReachesTheLabel : Prop :=
  ∀ (s : State) (a b : RegIdx) (raw16 : BitVec 16) (label : Int),
    raw16.toInt = beqDisplacement label s.pc → s.reg a = s.reg b →
    ∃ t, exec (.beq a b raw16) s = .next t ∧ t.pc = label

/-! ## Ports -/

/-- The memory ports (10_state.md R27, by the spec's decision D18; 20_memory.md R36; log 20): the word fetched is the array's word at
`i_addr`; a `lw` in bounds has a valid data port that reads, and loads the array's word at `d_addr`; a `sw` in bounds has one
with `x[b]`, and `d_we` is 1 in a cycle with `rst = 0` alone, whose step is that `sw` and commits; and memory after a cycle,
with either value of `rst`, is memory before it with `d_wdata` written at `d_addr` if `d_we` is 1. -/
def Obligations.MemoryPortsCarryEveryAccess : Prop :=
  (∀ s : State, 0 ≤ s.pc → s.pc ≤ 65535 →
    ∃ a, s.iAddrPort = some a ∧ (a.toNat : Int) = s.pc ∧ s.fetch = .ok (s.memWord a.toNat)) ∧
  (∀ (s : State) (a b : RegIdx) (raw16 : BitVec 16) (rst : Bool), s.run = .running →
    s.nextInstr = .ok (.lw a b raw16) → 0 ≤ s.effectiveAddress a raw16 → s.effectiveAddress a raw16 ≤ 65535 →
    ∃ p t, s.dataPort rst = some p ∧ p.we = false ∧ (p.addr.toNat : Int) = s.effectiveAddress a raw16 ∧
      step s = .next t ∧ t.reg b = s.memWord p.addr.toNat) ∧
  (∀ (s : State) (a b : RegIdx) (raw16 : BitVec 16) (rst : Bool), s.run = .running →
    s.nextInstr = .ok (.sw a b raw16) → 0 ≤ s.effectiveAddress a raw16 → s.effectiveAddress a raw16 ≤ 65535 →
    ∃ p, s.dataPort rst = some p ∧ p.we = !rst ∧ (p.addr.toNat : Int) = s.effectiveAddress a raw16 ∧
      p.wdata = s.reg b) ∧
  (∀ (s : State) (rst : Bool) (p : DataAccess), s.dataPort rst = some p → p.we = true →
    rst = false ∧ ∃ a b raw16 t, s.nextInstr = .ok (.sw a b raw16) ∧ step s = .next t ∧ t.icount = s.icount + 1) ∧
  ∀ (s t : State) (rst : Bool), clockEdge rst s = .next t → ∀ n,
    t.memWord n =
      match s.dataPort rst with
      | some p => if p.we = true ∧ n = p.addr.toNat then p.wdata else s.memWord n
      | none => s.memWord n

/-- The status ports (10_state.md R20, R22, R27, 60_exceptions.md R141; 90_conflicts.md C12; the numbers of the codes by the spec's decision
D11, the ports by D18): in every state with the invariant 32 bits hold the pc and the recorded pc, 33 bits hold the recorded
info, and `fault_cause` is 0 unless Faulted; the causes are numbered 0 to 5 and the run states 0 to 2; `halted`, `faulted` and
`dbg_rdata` say what they name; and a counter port of any width from 32 up holds `icount` to 2^32 - 1. -/
def Obligations.StatusPortsHoldEveryValue : Prop :=
  (∀ s : State, s.Inv →
    s.dbgPcPort.toInt = s.pc ∧ s.faultPcPort.toInt = s.faultPc ∧ s.faultInfoPort.toInt = s.faultInfo ∧
      (s.run ≠ .faulted → s.faultCausePort = 0)) ∧
  (∀ s : State, s.faultCausePort.toNat =
    match s.faultCause with
    | .noFault => 0
    | .unsupportedOpcode => 1
    | .invalidRegister => 2
    | .offsetRange => 3
    | .pcOutOfRange => 4
    | .memoryBounds => 5) ∧
  (RunState.running.code.toNat = 0 ∧ RunState.halted.code.toNat = 1 ∧ RunState.faulted.code.toNat = 2) ∧
  (∀ c c' : FaultCause, c.code = c'.code → c = c') ∧ (∀ r r' : RunState, r.code = r'.code → r = r') ∧
  (∀ s : State, (s.haltedPort = true ↔ s.run = .halted) ∧ (s.faultedPort = true ↔ s.run = .faulted) ∧
    ∀ r, s.dbgRdataPort r = s.reg r) ∧
  ∀ (s : State) (width : Nat) (h : 32 ≤ width), s.icount < 2 ^ 32 → (s.icountPort width h).toNat = s.icount

/-! ## The machine-code file, the I format, and which registers are read -/

/-- The machine-code file (20_memory.md R46, R45; the refusals by the spec's decisions D15 and D16, log 17): when every line's integer is
a signed 32-bit number and there are at most 65536 lines, the launch puts line `i` at address `i` as the word that reads as
that integer, leaves every word above, and the core has its reset values; one other line, or one line more, refuses the whole
file. -/
def Obligations.LaunchFilePlacesLineByLine : Prop :=
  ∀ (s : State) (lines : List Int),
    ((∀ n ∈ lines, -2 ^ 31 ≤ n ∧ n ≤ 2 ^ 31 - 1) → lines.length ≤ 65536 →
      ∃ t, s.launchFile lines = some t ∧
        (∀ i (h : i < lines.length), (t.memWord i).toInt = lines[i] ∧ ((t.memWord i).toNat : Int) = lines[i] % 2 ^ 32) ∧
        (∀ n, lines.length ≤ n → t.memWord n = s.memWord n) ∧
        t.pc = 0 ∧ (∀ r, t.reg r = 0) ∧ t.run = .running ∧ t.faultCause = .noFault ∧ t.faultPc = 0 ∧
        t.faultInfo = 0 ∧ t.icount = 0) ∧
    ((∃ n ∈ lines, n < -2 ^ 31 ∨ 2 ^ 31 - 1 < n) ∨ 65536 < lines.length → s.launchFile lines = none)

/-- The I format (30_encoding.md R53): the encoder's word for `lw`, `sw` and `beq` is seven zeros, the opcode, the two register
numbers and the offset in two's complement, in this order from bit 31 down; the decoder reads exactly these fields back, the
offset as a signed 16-bit number; and no bit below bit 25 is unused, so one instruction has one word, since by the spec's
decision D1 (R58; log 9) no word with any of bits 31:25 set is dispatched. -/
def Obligations.IFormatWordIsItsFieldsSideBySide : Prop :=
  (∀ (op : Fin 8) (a b : RegIdx) (d off : Int), 2 ≤ op.val → op.val ≤ 4 → -32768 ≤ off → off ≤ 32767 →
    encoderBlock ⟨op, a.val, b.val, d, off⟩ =
      .ok (0#7 ++ BitVec.ofNat 3 op.val ++ BitVec.ofNat 3 a.val ++ BitVec.ofNat 3 b.val ++ BitVec.ofInt 16 off)) ∧
  (∀ (a b : RegIdx) (raw16 : BitVec 16),
    dispatch (0#7 ++ 0b010#3 ++ BitVec.ofNat 3 a.val ++ BitVec.ofNat 3 b.val ++ raw16) = some (.lw a b raw16) ∧
    dispatch (0#7 ++ 0b011#3 ++ BitVec.ofNat 3 a.val ++ BitVec.ofNat 3 b.val ++ raw16) = some (.sw a b raw16) ∧
    dispatch (0#7 ++ 0b100#3 ++ BitVec.ofNat 3 a.val ++ BitVec.ofNat 3 b.val ++ raw16) = some (.beq a b raw16) ∧
    sext32 raw16 = raw16.toInt) ∧
  ∀ (w w' : Word) (i : Instr), dispatch w = some i → dispatch w' = some i → 2 ≤ i.opcode → i.opcode ≤ 4 → w = w'

/-- Register access (10_state.md R14; the values by the spec's decisions D4, log 11, D9, log 18, and D2, log 9, the whole entry of a
fault by D10, log 14). A read gives the pattern most recently written, or 0 after reset. The column "writes": a register that
the instruction does not name as written keeps its pattern, and at most one register changes in a step. The column "reads",
from above: two states that differ in one register that the instruction does not read step to states that differ in that
register at most, and in nothing if a step that commits writes it. From below: every register that the column names is one on
which some committed step depends, but for a `beq` of a register with itself or with offset 0, whose outcome no register changes
(43_control_transfer.md R120). Row by row: for every register number in every field the instruction completes, and what it leaves is the named registers' function. The host
reads every register after any step. -/
def Obligations.RegistersAreAccessedAsTheTableSays : Prop :=
  (∀ (s : State) (r r' : RegIdx) (v : Word), (s.writeReg r v).reg r' = if r' = r then v else s.reg r') ∧
  (∀ r, State.reset.reg r = 0) ∧
  (∀ (s t : State) (i : Instr) (r : RegIdx), exec i s = .next t → writtenReg i ≠ some r → t.reg r = s.reg r) ∧
  (∀ s t : State, step s = .next t → ∃ d, SameRegsBut d s t) ∧
  (∀ (s t t' : State) (i : Instr) (r : RegIdx) (v : Word), s.run = .running → r ∉ readRegs i →
    exec i s = .next t → exec i (s.writeReg r v) = .next t' →
    (∃ u, t' = t.writeReg r u) ∧
    (t.run ≠ .faulted → t' = if writtenReg i = some r then t else t.writeReg r v)) ∧
  (∀ (i : Instr) (r : RegIdx), i.wellFormed = true →
    (∀ a b raw16, i = .beq a b raw16 → a ≠ b ∧ raw16 ≠ 0) → r ∈ readRegs i →
    ∃ (s t t' : State) (v : Word), s.run = .running ∧ exec i s = .next t ∧ exec i (s.writeReg r v) = .next t' ∧
      t.run ≠ .faulted ∧ t' ≠ if writtenReg i = some r then t else t.writeReg r v) ∧
  (∀ (s : State) (a b d : RegIdx) (dest : BitVec 16), dest.toNat = d.val →
    (∃ t, exec (.add a b dest) s = .next t ∧ t.reg d = s.reg a + s.reg b ∧ t.pc = s.pc + 1) ∧
    (∃ t, exec (.nor a b dest) s = .next t ∧ t.reg d = ~~~(s.reg a ||| s.reg b) ∧ t.pc = s.pc + 1)) ∧
  (∀ (s : State) (a b : RegIdx) (raw16 : BitVec 16) (ea : Int), ea = (s.reg a).toInt + raw16.toInt →
    0 ≤ ea → ea ≤ 65535 →
    (∃ t, exec (.lw a b raw16) s = .next t ∧ t.reg b = s.memWord ea.toNat ∧ t.pc = s.pc + 1) ∧
    (∃ t, exec (.sw a b raw16) s = .next t ∧ t.memWord ea.toNat = s.reg b ∧ SameRegs s t ∧ t.pc = s.pc + 1)) ∧
  (∀ (s : State) (a b : RegIdx) (raw16 : BitVec 16),
    (∃ t, exec (.beq a b raw16) s = .next t ∧ SameRegs s t ∧
      t.pc = if s.reg a = s.reg b then s.pc + 1 + raw16.toInt else s.pc + 1) ∧
    (∃ t, exec (.jalr a b) s = .next t ∧ t.reg b = BitVec.ofInt 32 (s.pc + 1) ∧
      t.pc = (if a = b then BitVec.ofInt 32 (s.pc + 1) else s.reg a).toInt) ∧
    (∃ t, exec .halt s = .next t ∧ SameRegs s t) ∧ ∃ t, exec .noop s = .next t ∧ SameRegs s t) ∧
  ∀ (s : State) (r : RegIdx), s.dbgRdataPort r = s.reg r

/-! ## Bits and register numbers -/

/-- Bits (00_scope.md R5): bit 0 is the least significant, `w[hi:lo]` is the field of bits `hi` down to `lo` read as an unsigned
integer, the value of a word is the sum of its bits times their powers of two, and in `a ++ b` the part `a` is high, so that a
word is its fields side by side. -/
def Obligations.WordsAreNumberedFromBitZero : Prop :=
  (∀ (w : Word) (hi lo : Nat), lo ≤ hi → hi ≤ 31 →
    field w hi lo = ∑ k ∈ Finset.range (hi - lo + 1), (w.getLsbD (lo + k)).toNat * 2 ^ k) ∧
  (∀ w : Word, unsigned w = ((∑ k ∈ Finset.range 32, (w.getLsbD k).toNat * 2 ^ k : Nat) : Int)) ∧
  (∀ (m n : Nat) (a : BitVec m) (b : BitVec n), (a ++ b).toNat = a.toNat * 2 ^ n + b.toNat) ∧
  ∀ w : Word, w = BitVec.ofNat 7 (field w 31 25) ++ BitVec.ofNat 3 (field w 24 22) ++ BitVec.ofNat 3 (field w 21 19) ++
    BitVec.ofNat 3 (field w 18 16) ++ BitVec.ofNat 16 (field w 15 0)

/-- No register is special (10_state.md R13). However the register numbers are renamed, in the instruction and in the state alike,
the instruction does the same under the new names, so that register 0 is like any other; it is 0 after reset; a `jalr`, which
writes a value whatever the state, writes it to register 0 too; R-format destination 0 executes; register 0 changes only where
an instruction names it as written; and the encoder refuses it as destination of `add` and `nor`, and accepts it in the
written field of `lw` and `jalr`. -/
def Obligations.NoRegisterIsSpecial : Prop :=
  (∀ (f : RegIdx → RegIdx) (s s' t : State) (i : Instr), Function.Injective f → i.wellFormed = true → Renamed f s s' →
    exec i s = .next t → ∃ t', exec (renameRegs f i) s' = .next t' ∧ Renamed f t t') ∧
  State.reset.reg 0 = 0 ∧
  (∀ (s : State) (a : RegIdx), ∃ t, exec (.jalr a 0) s = .next t ∧ ((t.reg 0).toNat : Int) = (s.pc + 1) % 2 ^ 32) ∧
  (∀ (s : State) (a b : RegIdx), s.run = .running →
    (∃ t, exec (.add a b 0) s = .next t ∧ t.run = .running) ∧ ∃ t, exec (.nor a b 0) s = .next t ∧ t.run = .running) ∧
  (∀ (s t : State) (i : Instr), exec i s = .next t → t.reg 0 ≠ s.reg 0 → writtenReg i = some 0) ∧
  (∀ (op : Fin 8) (a b : RegIdx) (off : Int), op.val ≤ 1 → ∃ err, encoderBlock ⟨op, a.val, b.val, 0, off⟩ = .error err) ∧
  (∀ (a : RegIdx) (off : Int), -32768 ≤ off → off ≤ 32767 → ∃ w, encoderBlock ⟨2, a.val, 0, 0, off⟩ = .ok w) ∧
  ∀ (a : RegIdx) (off : Int), ∃ w, encoderBlock ⟨5, a.val, 0, 0, off⟩ = .ok w
end

