-- ==== Sys2Proof/Laws/Decode.lean ====
section
/-! SUPPORT. What the field extraction, the packing formula and the dispatch do, said once. -/

namespace Sys2Proof

/-- A field is the number that Lean's own bit extraction gives (00_scope.md R5). -/
theorem field_eq_extractLsb (w : Word) (hi lo : Nat) : field w hi lo = (w.extractLsb hi lo).toNat := by
  simp [field, BitVec.extractLsb, BitVec.extractLsb'_toNat, Nat.shiftRight_eq_div_pow]

/-- A bit extraction equals a constant exactly when the field has that value. -/
theorem extractLsb_eq_iff (w : Word) (hi lo k : Nat) (hk : k < 2 ^ (hi - lo + 1)) :
    w.extractLsb hi lo = BitVec.ofNat _ k ↔ field w hi lo = k := by
  rw [field_eq_extractLsb]
  constructor
  · intro h; rw [h, BitVec.toNat_ofNat, Nat.mod_eq_of_lt hk]
  · intro h; apply BitVec.eq_of_toNat_eq; rw [h, BitVec.toNat_ofNat, Nat.mod_eq_of_lt hk]

/-- The three operand fields as numbers (30_encoding.md R51). -/
theorem regAOf_val (w : Word) : (regAOf w).val = field w 21 19 := by
  simp only [regAOf, field, Fin.ofNat]; omega

theorem regBOf_val (w : Word) : (regBOf w).val = field w 18 16 := by
  simp only [regBOf, field, Fin.ofNat]; omega

theorem raw16Of_toNat (w : Word) : (raw16Of w).toNat = field w 15 0 := by
  simp only [raw16Of, field, BitVec.toNat_ofNat]; omega

/-- The packed word as a number, for fields in range (30_encoding.md R66). -/
theorem packFields_toNat {op a b low : Nat} (ho : op < 8) (ha : a < 8) (hb : b < 8) (hl : low < 65536) :
    (packFields op a b low).toNat = op * 2 ^ 22 + a * 2 ^ 19 + b * 2 ^ 16 + low := by
  simp only [packFields, BitVec.toNat_ofNat]; omega

/-- Every field of the packed word, for fields in range. -/
theorem packFields_fields {op a b low : Nat} (ho : op < 8) (ha : a < 8) (hb : b < 8) (hl : low < 65536) :
    field (packFields op a b low) 31 25 = 0 ∧ field (packFields op a b low) 24 22 = op ∧
      field (packFields op a b low) 21 19 = a ∧ field (packFields op a b low) 18 16 = b ∧
      field (packFields op a b low) 15 0 = low := by
  simp only [field, packFields_toNat ho ha hb hl]; omega

/-- A word with bits 31:25 clear is the packing of its fields. -/
theorem packFields_of_fields {w : Word} (h : field w 31 25 = 0) :
    packFields (field w 24 22) (field w 21 19) (field w 18 16) (field w 15 0) = w := by
  apply BitVec.eq_of_toNat_eq
  have := w.isLt
  simp only [packFields, field, BitVec.toNat_ofNat] at *; omega

/-- The opcode of a word is below 8, so dispatch's last arm is reached by no word. -/
theorem opcode_lt (w : Word) : field w 24 22 < 8 := by simp only [field]; omega

/-- What dispatch needs of a word to give an instruction: bits 31:25 clear, the opcode, and the operand fields
(40_step_cycle.md R83, R84). -/
theorem dispatch_eq_some {w : Word} {i : Instr} (h : dispatch w = some i) :
    field w 31 25 = 0 ∧ field w 24 22 = i.opcode ∧
      match i with
      | .add a b d | .nor a b d | .lw a b d | .sw a b d | .beq a b d => a = regAOf w ∧ b = regBOf w ∧ d = raw16Of w
      | .jalr a b => a = regAOf w ∧ b = regBOf w
      | .halt => True
      | .noop => True := by
  simp only [dispatch] at h
  split at h
  · cases h
  · rename_i h0
    refine ⟨Decidable.not_not.mp h0, ?_⟩
    split at h <;> first | (cases h; rename_i h1; exact ⟨h1, by simp⟩) | cases h

/-- Dispatch refuses exactly the words with any of bits 31:25 set (30_encoding.md R58, R61). -/
theorem dispatch_eq_none_iff (w : Word) : dispatch w = none ↔ field w 31 25 ≠ 0 := by
  constructor
  · intro h h0
    have ho := opcode_lt w
    simp only [dispatch, h0, ne_eq, not_true_eq_false, if_false] at h
    generalize field w 24 22 = op at h ho
    interval_cases op <;> simp at h
  · intro h; simp only [dispatch, if_pos h]

/-- The verdict on a word, over dispatch. -/
theorem decode_eq_ok_iff (w : Word) (i : Instr) : decode w = .ok i ↔ dispatch w = some i ∧ i.wellFormed = true := by
  simp only [decode]
  cases dispatch w with
  | none => simp
  | some j =>
    simp only [Option.some.injEq]
    split
    · rename_i hw
      exact ⟨fun h => ⟨Except.ok.inj h, Except.ok.inj h ▸ hw⟩, fun h => congrArg _ h.1⟩
    · rename_i hw
      exact ⟨nofun, fun h => absurd (h.1 ▸ h.2) hw⟩

end Sys2Proof
end

