-- ==== Sys2Proof/Laws/State.lean ====
section
/-! SUPPORT. One lemma for each field of State and each update of it, so that no proof unfolds a record update. -/

namespace Sys2Proof.Machine

section
variable (s : State)

@[simp] theorem State.writeReg_pc (i : RegIdx) (v : Word) : (s.writeReg i v).pc = s.pc := rfl
@[simp] theorem State.writeReg_mem (i : RegIdx) (v : Word) : (s.writeReg i v).mem = s.mem := rfl
@[simp] theorem State.writeReg_regs (i : RegIdx) (v : Word) : (s.writeReg i v).regs = s.regs.set i v := rfl
@[simp] theorem State.writeReg_run (i : RegIdx) (v : Word) : (s.writeReg i v).run = s.run := rfl
@[simp] theorem State.writeReg_faultCause (i : RegIdx) (v : Word) : (s.writeReg i v).faultCause = s.faultCause := rfl
@[simp] theorem State.writeReg_faultPc (i : RegIdx) (v : Word) : (s.writeReg i v).faultPc = s.faultPc := rfl
@[simp] theorem State.writeReg_faultInfo (i : RegIdx) (v : Word) : (s.writeReg i v).faultInfo = s.faultInfo := rfl
@[simp] theorem State.writeReg_icount (i : RegIdx) (v : Word) : (s.writeReg i v).icount = s.icount := rfl

@[simp] theorem State.commit_pc (target : Int) : (s.commit target).pc = target := rfl
@[simp] theorem State.commit_mem (target : Int) : (s.commit target).mem = s.mem := rfl
@[simp] theorem State.commit_regs (target : Int) : (s.commit target).regs = s.regs := rfl
@[simp] theorem State.commit_run (target : Int) : (s.commit target).run = s.run := rfl
@[simp] theorem State.commit_faultCause (target : Int) : (s.commit target).faultCause = s.faultCause := rfl
@[simp] theorem State.commit_faultPc (target : Int) : (s.commit target).faultPc = s.faultPc := rfl
@[simp] theorem State.commit_faultInfo (target : Int) : (s.commit target).faultInfo = s.faultInfo := rfl
@[simp] theorem State.commit_icount (target : Int) : (s.commit target).icount = s.icount + 1 := rfl

@[simp] theorem State.takeFault_pc (cause : FaultCause) (info : Int) : (s.takeFault cause info).pc = s.pc := rfl
@[simp] theorem State.takeFault_mem (cause : FaultCause) (info : Int) : (s.takeFault cause info).mem = s.mem := rfl
@[simp] theorem State.takeFault_regs (cause : FaultCause) (info : Int) : (s.takeFault cause info).regs = s.regs := rfl
@[simp] theorem State.takeFault_run (cause : FaultCause) (info : Int) : (s.takeFault cause info).run = .faulted := rfl
@[simp] theorem State.takeFault_faultCause (cause : FaultCause) (info : Int) : (s.takeFault cause info).faultCause = cause := rfl
@[simp] theorem State.takeFault_faultPc (cause : FaultCause) (info : Int) : (s.takeFault cause info).faultPc = s.pc := rfl
@[simp] theorem State.takeFault_faultInfo (cause : FaultCause) (info : Int) : (s.takeFault cause info).faultInfo = info := rfl
@[simp] theorem State.takeFault_icount (cause : FaultCause) (info : Int) : (s.takeFault cause info).icount = s.icount := rfl

@[simp] theorem State.halt_pc : (s.halt).pc = s.pc := rfl
@[simp] theorem State.halt_mem : (s.halt).mem = s.mem := rfl
@[simp] theorem State.halt_regs : (s.halt).regs = s.regs := rfl
@[simp] theorem State.halt_run : (s.halt).run = .halted := rfl
@[simp] theorem State.halt_faultCause : (s.halt).faultCause = s.faultCause := rfl
@[simp] theorem State.halt_faultPc : (s.halt).faultPc = s.faultPc := rfl
@[simp] theorem State.halt_faultInfo : (s.halt).faultInfo = s.faultInfo := rfl
@[simp] theorem State.halt_icount : (s.halt).icount = s.icount := rfl

@[simp] theorem State.resetCore_pc : (s.resetCore).pc = 0 := rfl
@[simp] theorem State.resetCore_mem : (s.resetCore).mem = s.mem := rfl
@[simp] theorem State.resetCore_regs : (s.resetCore).regs = Vector.replicate 8 0 := rfl
@[simp] theorem State.resetCore_run : (s.resetCore).run = .running := rfl
@[simp] theorem State.resetCore_faultCause : (s.resetCore).faultCause = .noFault := rfl
@[simp] theorem State.resetCore_faultPc : (s.resetCore).faultPc = 0 := rfl
@[simp] theorem State.resetCore_faultInfo : (s.resetCore).faultInfo = 0 := rfl
@[simp] theorem State.resetCore_icount : (s.resetCore).icount = 0 := rfl

@[simp] theorem State.placeWord_pc (w : Word) : (s.placeWord w).pc = (if inMemory s.pc then s.pc else 0) := rfl
@[simp] theorem State.placeWord_mem (w : Word) : (s.placeWord w).mem = s.mem.put (if inMemory s.pc then s.pc.toNat else 0) w := rfl
@[simp] theorem State.placeWord_regs (w : Word) : (s.placeWord w).regs = s.regs := rfl
@[simp] theorem State.placeWord_run (w : Word) : (s.placeWord w).run = .running := rfl
@[simp] theorem State.placeWord_faultCause (w : Word) : (s.placeWord w).faultCause = s.faultCause := rfl
@[simp] theorem State.placeWord_faultPc (w : Word) : (s.placeWord w).faultPc = s.faultPc := rfl
@[simp] theorem State.placeWord_faultInfo (w : Word) : (s.placeWord w).faultInfo = s.faultInfo := rfl
@[simp] theorem State.placeWord_icount (w : Word) : (s.placeWord w).icount = s.icount := rfl

end

/-! The state after reset (10_state.md R25). -/

@[simp] theorem State.reset_pc : State.reset.pc = 0 := rfl
@[simp] theorem State.reset_mem : State.reset.mem = [] := rfl
@[simp] theorem State.reset_regs : State.reset.regs = Vector.replicate 8 0 := rfl
@[simp] theorem State.reset_run : State.reset.run = .running := rfl
@[simp] theorem State.reset_faultCause : State.reset.faultCause = .noFault := rfl
@[simp] theorem State.reset_faultPc : State.reset.faultPc = 0 := rfl
@[simp] theorem State.reset_faultInfo : State.reset.faultInfo = 0 := rfl
@[simp] theorem State.reset_icount : State.reset.icount = 0 := rfl

end Sys2Proof.Machine
end

