-- ==== Sys2Proof/Laws/Memory.lean ====
section
/-! SUPPORT. The memory listing: a read after a write, the canonical form is kept by every memory operation, and canonical
listings that hold the same words are equal data. -/

namespace Sys2Proof.Machine

/-- Reading the listing after a write (20_memory.md R32, R33). -/
@[simp] theorem Memory.word?_put (m : Memory) (n : Nat) (v : Word) (k : Nat) :
    (m.put n v).word? k = if k = n then some v else m.word? k := by
  induction m with
  | nil => simp [Memory.put, Memory.word?]
  | cons c rest ih =>
    obtain ⟨a, u⟩ := c
    simp only [Memory.put]
    split
    · simp [Memory.word?]
    · split
      · subst_vars; simp only [Memory.word?]; split <;> rfl
      · simp only [Memory.word?, ih]; split <;> split <;> simp_all

/-- Every address of the listing after a write is the written one or an old one. -/
theorem Memory.mem_put {m : Memory} {n : Nat} {v : Word} {c : Nat × Word} (h : c ∈ m.put n v) :
    c = (n, v) ∨ c ∈ m := by
  induction m with
  | nil => simpa [Memory.put] using h
  | cons d rest ih =>
    obtain ⟨a, u⟩ := d
    simp only [Memory.put] at h
    split at h
    · simpa using h
    · split at h
      · rcases List.mem_cons.mp h with rfl | h
        · exact .inl rfl
        · exact .inr (List.mem_cons_of_mem _ h)
      · rcases List.mem_cons.mp h with rfl | h
        · exact .inr List.mem_cons_self
        · exact (ih h).imp_right (List.mem_cons_of_mem _)

/-- A write below 65536 keeps the canonical form. -/
theorem Memory.put_wf {m : Memory} {n : Nat} (v : Word) (h : m.wf) (hn : n < 65536) : (m.put n v).wf := by
  refine ⟨?_, fun c hc => ?_⟩
  · have hp := h.1
    clear h
    induction m with
    | nil => simp [Memory.put]
    | cons d rest ih =>
      obtain ⟨a, u⟩ := d
      rw [List.pairwise_cons] at hp
      simp only [Memory.put]
      split
      · rename_i hlt
        refine List.pairwise_cons.mpr ⟨fun c hc => ?_, List.pairwise_cons.mpr hp⟩
        rcases List.mem_cons.mp hc with rfl | hc
        · exact hlt
        · exact Nat.lt_trans hlt (hp.1 c hc)
      · split
        · subst_vars; exact List.pairwise_cons.mpr hp
        · refine List.pairwise_cons.mpr ⟨fun c hc => ?_, ih hp.2⟩
          rcases Memory.mem_put hc with rfl | hc
          · simp only; omega
          · exact hp.1 c hc
  · rcases Memory.mem_put hc with rfl | hc
    · exact hn
    · exact h.2 c hc

/-- Writing a list of words that ends below 65536 keeps the canonical form. -/
theorem Memory.putAll_wf {m : Memory} (ws : List Word) (at_ : Nat) (h : m.wf) (hn : at_ + ws.length ≤ 65536) :
    (m.putAll at_ ws).wf := by
  induction ws generalizing m at_ with
  | nil => exact h
  | cons w rest ih =>
    simp only [List.length_cons] at hn
    exact ih (at_ + 1) (Memory.put_wf w h (by omega)) (by omega)

/-- A word that no entry of the listing names is not listed. -/
theorem Memory.word?_none {m : Memory} {n : Nat} (h : ∀ c ∈ m, c.1 ≠ n) : m.word? n = none := by
  induction m with
  | nil => rfl
  | cons c rest ih =>
    obtain ⟨a, u⟩ := c
    have ha : n ≠ a := fun e => h (a, u) List.mem_cons_self e.symm
    simp only [Memory.word?, if_neg ha]
    exact ih fun c hc => h c (List.mem_cons_of_mem _ hc)

/-- An address that a rising listing has below all its entries is not listed. -/
theorem Memory.word?_lt {m : Memory} {n : Nat} (h : ∀ c ∈ m, n < c.1) : m.word? n = none :=
  Memory.word?_none fun c hc => (Nat.ne_of_lt (h c hc)).symm

/-- Canonical listings that hold the same words are equal data. -/
theorem Memory.ext_of_wf {m m' : Memory} (h : m.wf) (h' : m'.wf) (heq : ∀ n, m.word? n = m'.word? n) : m = m' := by
  have hp := h.1
  have hp' := h'.1
  clear h h'
  induction m generalizing m' with
  | nil =>
    cases m' with
    | nil => rfl
    | cons c rest => have := heq c.1; simp [Memory.word?] at this
  | cons c rest ih =>
    obtain ⟨a, u⟩ := c
    cases m' with
    | nil => have := heq a; simp [Memory.word?] at this
    | cons c' rest' =>
      obtain ⟨a', u'⟩ := c'
      rw [List.pairwise_cons] at hp hp'
      have haa : a = a' := by
        rcases Nat.lt_trichotomy a a' with hlt | rfl | hgt
        · have h1 := heq a
          have h2 : Memory.word? rest' a = none :=
            Memory.word?_lt fun c hc => Nat.lt_trans hlt (hp'.1 c hc)
          simp [Memory.word?, h2, Nat.ne_of_lt hlt] at h1
        · rfl
        · have h1 := heq a'
          have h2 : Memory.word? rest a' = none :=
            Memory.word?_lt fun c hc => Nat.lt_trans hgt (hp.1 c hc)
          simp [Memory.word?, h2, Nat.ne_of_lt hgt] at h1
      subst haa
      have huu : u = u' := by have := heq a; simpa [Memory.word?] using this
      subst huu
      have : rest = rest' := ih (fun n => ?_) hp.2 hp'.2
      · rw [this]
      · have h1 := heq n
        by_cases hn : n = a
        · subst hn
          rw [Memory.word?_lt hp.1, Memory.word?_lt hp'.1]
        · simpa [Memory.word?, hn] using h1

/-- The memory after reset is canonical. -/
theorem State.reset_mem_wf : State.reset.mem.wf := by decide

end Sys2Proof.Machine
end

