-- ==== Sys2Proof/Laws/Ops.lean ====
section
/-! SUPPORT. One lemma for each shared operation that says everything it does, for proofs to cite instead of unfolding it. -/

namespace Sys2Proof.Machine

/-! ## Numbers -/

/-- The range check as a proposition. -/
theorem inMemory_iff (n : Int) : inMemory n = true ↔ 0 ≤ n ∧ n < 65536 := by simp [inMemory]

/-- The range check that fails, as a proposition. -/
theorem inMemory_false_iff (n : Int) : inMemory n = false ↔ n < 0 ∨ 65536 ≤ n := by
  rw [← Bool.not_eq_true, inMemory_iff]; omega

/-- `signed` is the two's complement reading (00_scope.md R6). -/
theorem signed_eq_toInt (v : Word) : signed v = v.toInt := by
  simp only [signed, BitVec.toInt]; split <;> split <;> omega

/-- `signed` stays in the signed 32-bit range (00_scope.md R6). -/
theorem signed_range (v : Word) : -2 ^ 31 ≤ signed v ∧ signed v ≤ 2 ^ 31 - 1 := by
  have := v.isLt; simp only [signed]; split <;> omega

/-- `sext_32` is the two's complement reading of the field (00_scope.md R7). -/
theorem sext32_eq_toInt (v : BitVec 16) : sext32 v = v.toInt := by
  simp only [sext32, BitVec.toInt]; split <;> split <;> omega

/-- A sign-extended offset is in range, so `OffsetRange` cannot arise (40_step_cycle.md R87). -/
theorem sext32_range (v : BitVec 16) : -32768 ≤ sext32 v ∧ sext32 v ≤ 32767 := by
  have := v.isLt; simp only [sext32]; split <;> omega

/-- `trunc_32` of a signed 32-bit number is the pattern that reads as that number. -/
theorem trunc32_toNat (n : Int) : ((trunc32 n).toNat : Int) = n % 2 ^ 32 := by
  have h0 := Int.emod_nonneg n (b := 2 ^ 32) (by decide)
  have h1 := Int.emod_lt_of_pos n (b := 2 ^ 32) (by decide)
  simp only [trunc32, BitVec.toNat_ofNat]
  rw [Nat.mod_eq_of_lt (by omega)]
  exact Int.toNat_of_nonneg h0

/-- Reading `trunc_32(n)` back gives `n` for a signed 32-bit `n`. -/
theorem signed_trunc32 {n : Int} (h : fitsSigned32 n) : signed (trunc32 n) = n := by
  have h1 := trunc32_toNat n
  obtain ⟨hl, hu⟩ := h
  simp only [signed]; split <;> omega

/-! ## Registers -/

/-- A register read after a write (10_state.md R14). -/
@[simp] theorem State.reg_writeReg (s : State) (i : RegIdx) (v : Word) (r : RegIdx) :
    (s.writeReg i v).reg r = if r = i then v else s.reg r := by
  simp only [State.reg, State.writeReg, Fin.getElem_fin, Vector.getElem_set, Fin.ext_iff, eq_comm]

/-- The later of two writes to one register stands (10_state.md R14). -/
@[simp] theorem State.writeReg_writeReg (s : State) (i : RegIdx) (v u : Word) :
    (s.writeReg i v).writeReg i u = s.writeReg i u := by simp [State.writeReg]

/-- Writes to two registers commute. -/
theorem State.writeReg_comm (s : State) {i j : RegIdx} (h : i ≠ j) (v u : Word) :
    (s.writeReg i v).writeReg j u = (s.writeReg j u).writeReg i v := by
  simp only [State.writeReg]
  congr 1
  exact Vector.set_comm _ _ (fun e => h (Fin.ext e))

@[simp] theorem State.reg_commit (s : State) (target : Int) (r : RegIdx) : (s.commit target).reg r = s.reg r := rfl

@[simp] theorem State.reg_takeFault (s : State) (cause : FaultCause) (info : Int) (r : RegIdx) :
    (s.takeFault cause info).reg r = s.reg r := rfl

@[simp] theorem State.reg_halt (s : State) (r : RegIdx) : s.halt.reg r = s.reg r := rfl

@[simp] theorem State.reg_resetCore (s : State) (r : RegIdx) : s.resetCore.reg r = 0 := by
  simp [State.reg, State.resetCore, State.reset]

@[simp] theorem State.reg_reset (r : RegIdx) : State.reset.reg r = 0 := by simp [State.reg, State.reset]

/-! ## Memory words -/

@[simp] theorem State.memWord_writeReg (s : State) (i : RegIdx) (v : Word) (n : Nat) :
    (s.writeReg i v).memWord n = s.memWord n := rfl

@[simp] theorem State.fetchedWord_writeReg (s : State) (i : RegIdx) (v : Word) :
    (s.writeReg i v).fetchedWord = s.fetchedWord := rfl

@[simp] theorem State.memWord_commit (s : State) (target : Int) (n : Nat) :
    (s.commit target).memWord n = s.memWord n := rfl

@[simp] theorem State.memWord_takeFault (s : State) (cause : FaultCause) (info : Int) (n : Nat) :
    (s.takeFault cause info).memWord n = s.memWord n := rfl

@[simp] theorem State.memWord_halt (s : State) (n : Nat) : s.halt.memWord n = s.memWord n := rfl

@[simp] theorem State.memWord_resetCore (s : State) (n : Nat) : s.resetCore.memWord n = s.memWord n := rfl

/-- All that `MemRead` can do. -/
theorem State.memRead_cases (s : State) (addr : Int) :
    (inMemory addr = true ∧ s.memRead addr = some (s.memWord addr.toNat)) ∨
      (inMemory addr = false ∧ s.memRead addr = none) := by
  simp only [State.memRead]
  cases h : inMemory addr <;> simp

/-- All that `MemWrite` can do: the word at the address is replaced, no other field and no other word changes, and the
canonical form is kept; or the address is out of range. -/
theorem State.memWrite_cases (s : State) (addr : Int) (v : Word) :
    (inMemory addr = true ∧ ∃ t, s.memWrite addr v = some t ∧ t = { s with mem := t.mem } ∧
        (∀ n, t.memWord n = if n = addr.toNat then v else s.memWord n) ∧ (s.mem.wf → t.mem.wf)) ∨
      (inMemory addr = false ∧ s.memWrite addr v = none) := by
  simp only [State.memWrite]
  cases h : inMemory addr
  · simp
  · refine .inl ⟨rfl, _, rfl, rfl, fun n => ?_, fun hw => Memory.put_wf v hw ?_⟩
    · simp only [State.memWord, Memory.word?_put]; split <;> simp
    · have := (inMemory_iff addr).mp h; omega

/-! ## The frame of a step -/

/-- Taking a fault is `FaultTaken`, whole (60_exceptions.md R149). -/
theorem State.takeFault_faultTaken (s : State) (cause : FaultCause) (info : Int) :
    FaultTaken cause info s (s.takeFault cause info) :=
  ⟨rfl, rfl, rfl, rfl, rfl, fun _ => rfl, fun _ => rfl, rfl⟩

/-- A commit counts the step and leaves run, record, registers and memory as its argument has them. -/
theorem State.commit_committed (s : State) (target : Int) : Committed s (s.commit target) :=
  ⟨rfl, rfl, rfl, rfl, rfl⟩

/-! ## The front of a step -/

/-- All that fetch and dispatch can answer. -/
theorem State.nextInstr_cases (s : State) :
    (inMemory s.pc = false ∧ s.nextInstr = .error ⟨.pcOutOfRange, s.pc⟩) ∨
      (inMemory s.pc = true ∧ dispatch (s.memWord s.pc.toNat) = none ∧
        s.nextInstr = .error ⟨.unsupportedOpcode, unsigned (s.memWord s.pc.toNat)⟩) ∨
      (inMemory s.pc = true ∧ ∃ i, dispatch (s.memWord s.pc.toNat) = some i ∧ s.nextInstr = .ok i) := by
  simp only [State.nextInstr, State.fetch, State.fetchedWord]
  cases h : inMemory s.pc
  · simp
  · cases hd : dispatch (s.memWord s.pc.toNat) <;> simp [hd]

/-- The step of a Running core whose fetch gives an instruction is that instruction's meaning. -/
theorem step_of_nextInstr {s : State} {i : Instr} (hr : s.run = .running) (h : s.nextInstr = .ok i) :
    step s = exec i s := by simp only [step, hr, h]

/-- The step of a Running core whose fetch raises takes that fault. -/
theorem step_of_raise {s : State} {r : Raise} (hr : s.run = .running) (h : s.nextInstr = .error r) :
    step s = .next (s.takeFault r.cause r.info) := by simp only [step, hr, h]

/-- All that the shared part of `add` and `nor` can do. -/
theorem destReg?_cases (dest : BitVec 16) :
    (dest.toNat ≤ 7 ∧ ∃ d : RegIdx, d.val = dest.toNat ∧ destReg? dest = some d) ∨
      (7 < dest.toNat ∧ destReg? dest = none) := by
  simp only [destReg?]
  by_cases h : dest.toNat ≤ 7
  · exact .inl ⟨h, Fin.ofNat 8 dest.toNat, Nat.mod_eq_of_lt (by omega), by simp [h]⟩
  · exact .inr ⟨by omega, by simp [h]⟩

/-! ## What the host does -/

/-- `withFetchWord` stores the word where the next step fetches it, and keeps the canonical form. -/
theorem State.fetch_withFetchWord (s : State) (nbits w : Nat) :
    (s.withFetchWord nbits w).run = .running ∧
      (s.withFetchWord nbits w).fetch = .ok (BitVec.ofNat 32 w) := by
  refine ⟨rfl, ?_⟩
  simp only [State.withFetchWord, State.fetch, State.fetchedWord, State.placeWord_pc, State.memWord, State.placeWord_mem]
  by_cases h : inMemory s.pc = true
  · simp [h]
  · have h0 : inMemory 0 = true := by decide
    simp [h, h0]

/-- The word at an address after a list of words was written from `at_` upward (20_memory.md R45). -/
theorem Memory.word?_putAll (m : Memory) (at_ : Nat) (ws : List Word) (n : Nat) :
    (m.putAll at_ ws).word? n = if at_ ≤ n ∧ n < at_ + ws.length then ws[n - at_]? else m.word? n := by
  induction ws generalizing m at_ with
  | nil =>
    have : ¬ (at_ ≤ n ∧ n < at_) := by omega
    simp [Memory.putAll, this]
  | cons w rest ih =>
    simp only [Memory.putAll, ih, Memory.word?_put, List.length_cons]
    by_cases h1 : n = at_
    · subst h1
      simp
    · by_cases h2 : at_ + 1 ≤ n ∧ n < at_ + 1 + rest.length
      · have h3 : at_ ≤ n ∧ n < at_ + (rest.length + 1) := by omega
        obtain ⟨k, hk⟩ : ∃ k, n - at_ = k + 1 := ⟨n - at_ - 1, by omega⟩
        have hk' : n - (at_ + 1) = k := by omega
        simp [h2, h3, hk, hk']
      · have h3 : ¬ (at_ ≤ n ∧ n < at_ + (rest.length + 1)) := by omega
        rw [if_neg h2, if_neg h3, if_neg h1]

/-- All that the conversion of a file can answer: the words of all its lines in order, or a refusal (20_memory.md R46). -/
theorem linesToImage_eq_some {lines : List Int} {image : List Word} :
    linesToImage lines = some image ↔ lines.map lineToWord = image.map some := by
  induction lines generalizing image with
  | nil => cases image <;> simp [linesToImage]
  | cons n rest ih =>
    cases hw : lineToWord n with
    | none => cases image <;> simp [linesToImage, hw]
    | some w =>
      cases hr : linesToImage rest with
      | none =>
        cases image with
        | nil => simp [linesToImage, hw, hr]
        | cons v image => simp [linesToImage, hw, hr, ← ih]
      | some ws => cases image <;> simp [linesToImage, hw, hr, ← ih]

/-- One line that is refused refuses the whole file (20_memory.md R46). -/
theorem linesToImage_eq_none {lines : List Int} {n : Int} (hn : n ∈ lines) (h : lineToWord n = none) :
    linesToImage lines = none := by
  cases hl : linesToImage lines with
  | none => rfl
  | some image =>
    have hm := List.mem_map_of_mem (f := lineToWord) hn
    rw [linesToImage_eq_some.mp hl, h] at hm
    simp at hm

/-! ## The data port -/

/-- All that the data port can carry: a Running core's `lw` or `sw` in bounds. -/
theorem State.dataPort_eq_some {s : State} {rst : Bool} {p : DataAccess} :
    s.dataPort rst = some p ↔ s.run = .running ∧ ∃ a b raw16,
      inMemory (s.effectiveAddress a raw16) = true ∧
        (s.nextInstr = .ok (.lw a b raw16) ∧ p = ⟨BitVec.ofInt 16 (s.effectiveAddress a raw16), false, s.reg b⟩ ∨
          s.nextInstr = .ok (.sw a b raw16) ∧ p = ⟨BitVec.ofInt 16 (s.effectiveAddress a raw16), !rst, s.reg b⟩) := by
  cases hr : s.run with
  | halted => simp [State.dataPort, hr]
  | faulted => simp [State.dataPort, hr]
  | running =>
    cases hn : s.nextInstr with
    | error r => simp [State.dataPort, hr, hn]
    | ok i =>
      cases i <;>
        simp only [State.dataPort, hr, hn, State.accessOf, State.dataAccess?, Except.ok.injEq, Instr.lw.injEq,
          Instr.sw.injEq, reduceCtorEq, false_and, and_false, or_false, false_or, exists_false, true_and,
          Option.ite_none_right_eq_some, Option.some.injEq]
      · exact ⟨fun ⟨hi, hp⟩ => ⟨_, _, _, hi, ⟨rfl, rfl, rfl⟩, hp.symm⟩,
          fun ⟨_, _, _, hi, ⟨rfl, rfl, rfl⟩, hp⟩ => ⟨hi, hp.symm⟩⟩
      · exact ⟨fun ⟨hi, hp⟩ => ⟨_, _, _, hi, ⟨rfl, rfl, rfl⟩, hp.symm⟩,
          fun ⟨_, _, _, hi, ⟨rfl, rfl, rfl⟩, hp⟩ => ⟨hi, hp.symm⟩⟩

end Sys2Proof.Machine
end

