-- ==== Sys2Proof/Laws/Exec.lean ====
section
/-! SUPPORT. What an instruction and a step can do, said once: for proofs about every instruction and every step to take
apart, instead of unfolding the meanings. -/

namespace Sys2Proof.Machine

/-- All the next states an instruction can answer, over the shared operations. -/
def Answers (i : Instr) (s t : State) : Prop :=
  match i with
  | .add a b dest =>
    (destReg? dest = none ∧ t = s.takeFault .invalidRegister (unsigned s.fetchedWord)) ∨
      ∃ d, destReg? dest = some d ∧ t = (s.writeReg d (aluAdd (s.reg a) (s.reg b))).commit s.npc
  | .nor a b dest =>
    (destReg? dest = none ∧ t = s.takeFault .invalidRegister (unsigned s.fetchedWord)) ∨
      ∃ d, destReg? dest = some d ∧ t = (s.writeReg d (aluNor (s.reg a) (s.reg b))).commit s.npc
  | .lw a b raw16 =>
    (inMemory (s.effectiveAddress a raw16) = false ∧ t = s.takeFault .memoryBounds (s.effectiveAddress a raw16)) ∨
      (inMemory (s.effectiveAddress a raw16) = true ∧
        t = (s.writeReg b (s.memWord (s.effectiveAddress a raw16).toNat)).commit s.npc)
  | .sw a b raw16 =>
    (inMemory (s.effectiveAddress a raw16) = false ∧ t = s.takeFault .memoryBounds (s.effectiveAddress a raw16)) ∨
      (inMemory (s.effectiveAddress a raw16) = true ∧
        t = State.commit { s with mem := s.mem.put (s.effectiveAddress a raw16).toNat (s.reg b) } s.npc)
  | .beq a b raw16 => t = s.commit (if s.reg a = s.reg b then s.branchTarget raw16 else s.npc)
  | .jalr a b => t = (s.link b).commit (signed ((s.link b).reg a))
  | .halt => t = s.halt.commit s.npc
  | .noop => t = s.commit s.npc

/-- An instruction's next state is one of its answers. -/
theorem exec_answers {i : Instr} {s t : State} (h : exec i s = .next t) : Answers i s t := by
  cases i with
  | add a b dest =>
    simp only [exec, execAdd, State.rFormat] at h
    split at h <;> cases h
    · exact .inl ⟨‹_›, rfl⟩
    · exact .inr ⟨_, ‹_›, rfl⟩
  | nor a b dest =>
    simp only [exec, execNor, State.rFormat] at h
    split at h <;> cases h
    · exact .inl ⟨‹_›, rfl⟩
    · exact .inr ⟨_, ‹_›, rfl⟩
  | lw a b raw16 =>
    rcases s.memRead_cases (s.effectiveAddress a raw16) with ⟨hi, hr⟩ | ⟨hi, hr⟩
    · simp only [exec, execLw, hr] at h; cases h; exact .inr ⟨hi, rfl⟩
    · simp only [exec, execLw, hr] at h; cases h; exact .inl ⟨hi, rfl⟩
  | sw a b raw16 =>
    simp only [exec, execSw, State.memWrite] at h
    cases hi : inMemory (s.effectiveAddress a raw16)
    · simp only [hi] at h; cases h; exact .inl ⟨hi, rfl⟩
    · simp only [hi] at h; cases h; exact .inr ⟨hi, rfl⟩
  | beq a b raw16 => cases h; simp only [Answers, wordsEqual, decide_eq_true_eq]
  | jalr a b => cases h; rfl
  | halt => cases h; rfl
  | noop => cases h; rfl

/-- All that a step can do: a stopped core stays as it is; a Running one raises what its fetch raises or answers what its
instruction answers. -/
theorem step_cases {s t : State} (h : step s = .next t) :
    (s.run ≠ .running ∧ t = s) ∨
      (s.run = .running ∧ ∃ r, s.nextInstr = .error r ∧ t = s.takeFault r.cause r.info) ∨
      (s.run = .running ∧ ∃ i, s.nextInstr = .ok i ∧ Answers i s t) := by
  cases hr : s.run with
  | running =>
    cases hn : s.nextInstr with
    | error r => rw [step_of_raise hr hn] at h; cases h; exact .inr (.inl ⟨rfl, r, rfl, rfl⟩)
    | ok i => rw [step_of_nextInstr hr hn] at h; exact .inr (.inr ⟨rfl, i, rfl, exec_answers h⟩)
  | halted => simp only [step, hr] at h; cases h; exact .inl ⟨nofun, rfl⟩
  | faulted => simp only [step, hr] at h; cases h; exact .inl ⟨nofun, rfl⟩

end Sys2Proof.Machine
end

