-- ==== Sys2Proof/Laws/PerInstr.lean ====
section
/-! SUPPORT. One family of statements about every instruction as syntax: the packed word has its opcode in bits 31:22. -/

namespace Sys2Proof.Laws

/-- Bits 31:25 of the packed word are 0 and bits 24:22 hold the opcode number (30_encoding.md R56, R66). -/
def OpcodeField.Statement (i : Instr) : Prop :=
  field (encode i) 31 25 = 0 ∧ field (encode i) 24 22 = i.opcode

/-- The packing formula leaves an opcode below 8 in bits 31:22, whatever fields in range stand below it. -/
theorem packFields_opcode {op a b low : Nat} (ho : op < 8) (ha : a < 8) (hb : b < 8) (hl : low < 65536) :
    field (packFields op a b low) 31 25 = 0 ∧ field (packFields op a b low) 24 22 = op := by
  simp only [field, packFields, BitVec.toNat_ofNat]; omega

theorem OpcodeField.add (a b : RegIdx) (dest : BitVec 16) : OpcodeField.Statement (.add a b dest) :=
  packFields_opcode (by decide) a.isLt b.isLt dest.isLt

theorem OpcodeField.nor (a b : RegIdx) (dest : BitVec 16) : OpcodeField.Statement (.nor a b dest) :=
  packFields_opcode (by decide) a.isLt b.isLt dest.isLt

theorem OpcodeField.lw (a b : RegIdx) (raw16 : BitVec 16) : OpcodeField.Statement (.lw a b raw16) :=
  packFields_opcode (by decide) a.isLt b.isLt raw16.isLt

theorem OpcodeField.sw (a b : RegIdx) (raw16 : BitVec 16) : OpcodeField.Statement (.sw a b raw16) :=
  packFields_opcode (by decide) a.isLt b.isLt raw16.isLt

theorem OpcodeField.beq (a b : RegIdx) (raw16 : BitVec 16) : OpcodeField.Statement (.beq a b raw16) :=
  packFields_opcode (by decide) a.isLt b.isLt raw16.isLt

theorem OpcodeField.jalr (a b : RegIdx) : OpcodeField.Statement (.jalr a b) :=
  packFields_opcode (by decide) a.isLt b.isLt (by decide)

theorem OpcodeField.halt : OpcodeField.Statement .halt :=
  packFields_opcode (by decide) (by decide) (by decide) (by decide)

theorem OpcodeField.noop : OpcodeField.Statement .noop :=
  packFields_opcode (by decide) (by decide) (by decide) (by decide)

end Sys2Proof.Laws
end

