-- ==== Sys2Proof/Tests/Slice0.lean ====
section
/-! SUPPORT. Tests: their expected results are the spec's worked examples and tables (95_test_vectors.md), read by hand. -/

namespace Sys2Proof.Tests

open Sys2Proof Sys2Proof.Machine

/-! ## Small states -/

/-- A Running core at `pc` with some words and some registers set, everything else as after reset. -/
def small (pc : Int) (words : List (Nat × Word)) (regs : List (RegIdx × Word)) : State :=
  regs.foldl (fun s p => s.writeReg p.1 p.2)
    { State.reset with pc := pc, mem := words.foldl (fun m p => m.put p.1 p.2) [] }

/-- The next state, when there is one. -/
def after (o : Host.Outcome State Fault Refusal) : Option State :=
  match o with
  | .next t => some t
  | .fault _ => none
  | .refused _ => none

/-- The instruction the decoder gives, when the word is legal. -/
def legal (w : Word) : Option Instr := (decode w).toOption

/-- The verdict on an illegal word. -/
def illegal (w : Word) : Option Illegal :=
  match decode w with
  | .error e => some e
  | .ok _ => none

/-- The encoder's word or its error. -/
def encoded (e : EncoderInput) : Option Nat ⊕ EncoderError :=
  match encoderBlock e with
  | .ok w => .inl (some w.toNat)
  | .error err => .inr err

/-! ## WellFormed: the one check, on both instructions that have it (30_encoding.md R59) -/

theorem test_wellFormed_add_refuses_8 : (Instr.add 1 2 8).wellFormed = false := by decide
theorem test_wellFormed_nor_refuses_all_ones : (Instr.nor 0 0 0xFFFF).wellFormed = false := by decide
theorem test_wellFormed_add_accepts_0 : (Instr.add 1 2 0).wellFormed = true := by decide

/-! ## Decoding, words written out from the formats (30_encoding.md R52 to R55; tables D and E) -/

theorem test_decode_add : legal 0b0000000_000_001_010_0000000000000_011#32 = some (.add 1 2 3) := by decide
theorem test_decode_nor : legal 0b0000000_001_001_010_0000000000000_011#32 = some (.nor 1 2 3) := by decide
theorem test_decode_lw : legal 0b0000000_010_001_010_1000000000000000#32 = some (.lw 1 2 0x8000) := by decide
theorem test_decode_sw : legal 0b0000000_011_101_110_1111111111111100#32 = some (.sw 5 6 0xFFFC) := by decide
theorem test_decode_beq : legal 0b0000000_100_001_010_0000000000000010#32 = some (.beq 1 2 2) := by decide
theorem test_decode_jalr : legal 0b0000000_101_001_010_0000000000000001#32 = some (.jalr 1 2) := by decide
theorem test_decode_halt : legal 0b0000000_110_0000000000000000000001#32 = some .halt := by decide
theorem test_decode_noop : legal 0b0000000_111_1111111111111111111111#32 = some .noop := by decide
theorem test_decode_zero_word_is_add : legal 0#32 = some (.add 0 0 0) := by decide
theorem test_decode_refuses_bit_25 : illegal 58720256#32 = some .unsupportedOpcode := by decide
theorem test_decode_refuses_bits_15_3 : illegal 655371#32 = some .invalidRegister := by decide
theorem test_decode_opcode_error_first : illegal 33554440#32 = some .unsupportedOpcode := by decide
theorem test_decodeTableWord_lw : decodeTableWord 32 0x00810005 = some (.lw 0 1 5) := by decide

/-! ## Encoding (table E) -/

theorem test_encode_sw : encode (.sw 5 6 0xFFFC) = 15663100#32 := by decide
theorem test_encode_jalr : encode (.jalr 1 2) = 21626880#32 := by decide
theorem test_encoder_sw : encoded ⟨3, 5, 6, 0, -4⟩ = .inl (some 15663100) := by decide
theorem test_encoder_lowest_offset : encoded ⟨2, 1, 2, 0, -32768⟩ = .inl (some 9076736) := by decide
theorem test_encoder_refuses_offset : encoded ⟨2, 1, 2, 0, -32769⟩ = .inr .offsetRange := by decide
theorem test_encoder_register_error_first : encoded ⟨2, 8, 0, 0, 40000⟩ = .inr .invalidRegister := by decide
theorem test_encoder_refuses_dest_0 : encoded ⟨0, 1, 2, 0, 0⟩ = .inr .invalidRegister := by decide
theorem test_encoder_highest_register : encoded ⟨0, 7, 7, 7, 0⟩ = .inl (some 4128775) := by decide

/-! ## One step of each instruction (tables A, N, L, B, J, H and Part 4) -/

/-- Table A: 2147483647 + 1 wraps. -/
theorem test_add_wraps :
    (after (step (small 0 [(0, 0x000A0003)] [(1, 2147483647), (2, 1)]))).map (fun t => (t.reg 3, t.pc, t.icount)) =
      some (0x80000000#32, 1, 1) := by decide

/-- Table A: `add 0 0 0`, the zero word, doubles register 0. -/
theorem test_add_register_zero :
    (after (step (small 0 [(0, 0)] [(0, 3)]))).map (·.reg 0) = some 6#32 := by decide

/-- Table N: 3855 nor 255. -/
theorem test_nor_example :
    (after (step (small 0 [(0, 0x004A0003)] [(1, 3855), (2, 255)]))).map (·.reg 3) = some 0xFFFFF000#32 := by decide

/-- F4, on `nor`: the word 4194312 has bit 3 set. -/
theorem test_nor_reserved_bit_faults :
    (after (step (small 7 [(7, 4194312)] []))).map
      (fun t => (t.run, t.faultCause, t.faultPc, t.faultInfo, t.pc, t.icount)) =
      some (.faulted, .invalidRegister, 7, 4194312, 7, 0) := by decide

/-- `lw 1 1 0` reads the base before it writes the destination. -/
theorem test_lw_base_is_destination :
    (after (step (small 0 [(0, 8978432), (20, 77)] [(1, 20)]))).map (fun t => (t.reg 1, t.pc)) =
      some (77#32, 1) := by decide

/-- Table L: base 2147483647 and offset 32767 record an address that needs 33 bits. -/
theorem test_lw_out_of_bounds :
    (after (step (small 0 [(0, 9076735)] [(1, 2147483647)]))).map (fun t => (t.faultCause, t.faultInfo)) =
      some (.memoryBounds, 2147516414) := by decide

/-- Table L: base 98303 and offset -32768 store at the last word. -/
theorem test_sw_last_word :
    (after (step (small 0 [(0, 0x00CA8000)] [(1, 98303), (2, 5)]))).map (fun t => (t.mem.word? 65535, t.pc)) =
      some (some 5#32, 1) := by decide

/-- F1: `sw 0 1 -1` faults. -/
theorem test_sw_below_memory :
    (after (step (small 0 [(0, 12713983)] []))).map (fun t => (t.run, t.faultInfo, t.mem, t.icount)) =
      some (.faulted, -1, [(0, 12713983)], 0) := by decide

/-- Table B: `beq 0 0 -4` at 5 goes to 2. -/
theorem test_beq_backward : (after (step (small 5 [(5, 16842748)] []))).map (·.pc) = some 2 := by decide

/-- Table B: not taken. -/
theorem test_beq_not_taken :
    (after (step (small 2 [(2, 17432578)] [(1, 4), (2, 5)]))).map (·.pc) = some 3 := by decide

/-- T8: `jalr 1 2` at 4. -/
theorem test_jalr_example :
    (after (step (small 4 [(4, 21626880)] [(1, 9)]))).map (fun t => (t.reg 2, t.reg 1, t.pc)) =
      some (5#32, 9#32, 9) := by decide

/-- Table J: `jalr 3 3` at 1 falls through. -/
theorem test_jalr_same_register :
    (after (step (small 1 [(1, 22740992)] [(3, 500)]))).map (fun t => (t.reg 3, t.pc)) = some (2#32, 2) := by decide

/-- F6: `halt` at 65535. -/
theorem test_halt_at_last_address :
    (after (step (small 65535 [(65535, 25165824)] []))).map (fun t => (t.run, t.pc, t.icount)) =
      some (.halted, 65536, 1) := by decide

/-- Table H: a `noop` with every ignored bit set. -/
theorem test_noop_non_canonical :
    (after (step (small 2 [(2, 0x01FFFFFF)] [(1, 9)]))).map (fun t => (t.run, t.pc, t.reg 1)) =
      some (.running, 3, 9#32) := by decide

/-- F5: the fetch from -1. -/
theorem test_fetch_from_minus_one :
    (after (step (small (-1) [] []))).map (fun t => (t.faultCause, t.faultPc, t.faultInfo)) =
      some (.pcOutOfRange, -1, -1) := by decide

/-- F2: the word -1 is an unsupported opcode. -/
theorem test_unsupported_opcode :
    (after (step (small 1 [(1, 0xFFFFFFFF)] []))).map (fun t => (t.faultCause, t.faultPc, t.faultInfo)) =
      some (.unsupportedOpcode, 1, 4294967295) := by decide

/-- The host's placement: the first step after reset runs the placed word (`jalr 0 1` at 0). -/
theorem test_withFetchWord_runs :
    (after (step (State.reset.withFetchWord 32 0x01410000))).map (fun t => (t.reg 1, t.pc, t.icount)) =
      some (1#32, 0, 1) := by decide

/-! ## Witnesses: for each statement with hypotheses, a state and operands that meet them -/

theorem witness_LaunchPlacesImageFromAddressZero_fits :
    ([8454149#32, 25165824#32] : List Word).length ≤ 65536 := by decide

theorem witness_LaunchPlacesImageFromAddressZero_full :
    (List.replicate 65536 (0#32 : Word)).length ≤ 65536 := by rw [List.length_replicate]

theorem witness_LaunchPlacesImageFromAddressZero_refused :
    65536 < (List.replicate 65537 (0#32 : Word)).length := by rw [List.length_replicate]; decide

theorem witness_EveryStepKeepsInvariant : State.reset.Inv ∧ ∃ t, step (small 0 [(0, 0)] []) = .next t :=
  ⟨⟨by decide, ⟨by decide, by decide⟩, ⟨by decide, by decide⟩, ⟨rfl, rfl, rfl⟩⟩, _, rfl⟩

/-- A Faulted state with the invariant that a step keeps. -/
theorem witness_EveryStepKeepsInvariant_faulted :
    ((small 1 [(1, 0xFFFFFFFF)] []).takeFault .unsupportedOpcode 4294967295).Inv :=
  ⟨by decide, ⟨by decide, by decide⟩, ⟨by decide, by decide⟩, ⟨rfl, by decide, by decide⟩⟩

theorem witness_HaltedCoreStandsAfterHalt :
    (small 2 [(2, 25165824)] []).haltBehind ∧ ∃ t, step (small 2 [(2, 25165824)] []) = .next t ∧ t.run = .halted :=
  ⟨fun h => (nomatch h), _, rfl, rfl⟩

theorem witness_DecodeOfEncodeIsTheInstruction : (Instr.add 7 7 7).wellFormed = true := by decide

theorem witness_EncodeOfDecodeIsTheWordIfCanonical :
    legal 0x014A0001#32 = some (.jalr 1 2) ∧ legal 0x014A0000#32 = some (.jalr 1 2) := by decide

theorem witness_DecodeVerdictOnEveryWord :
    (7 : RegIdx).val = ((0x00BFFFFF#32).extractLsb 21 19).toNat ∧
      (7 : RegIdx).val = ((0x00BFFFFF#32).extractLsb 18 16).toNat ∧
      (0xFFFF : BitVec 16) = (0x00BFFFFF#32).extractLsb 15 0 := by decide

theorem witness_EncoderRefusesWhatIsOutOfRange :
    encoded ⟨1, 0, 0, 7, 0⟩ = .inl (some 4194311) ∧ encoded ⟨1, 8, 0, 7, 0⟩ = .inr .invalidRegister ∧
      encoded ⟨4, 0, 7, 0, 32767⟩ = .inl (some 17268735) ∧ encoded ⟨4, 0, 7, 0, 32768⟩ = .inr .offsetRange ∧
      encoded ⟨5, 0, 8, 0, 0⟩ = .inr .invalidRegister ∧ encoded ⟨5, 4, 7, 0, 0⟩ = .inl (some 23527424) ∧
      encoded ⟨6, -1, 9, 0, 0⟩ = .inl (some 25165824) := by decide

theorem witness_EncoderPacksFieldsByFormula : encoded ⟨0, 1, 2, 3, 0⟩ = .inl (some 655363) := by decide

theorem witness_EncoderBlockGivesTheInstructionsWord :
    (Instr.nor 0 0 0).wellFormed = true ∧ (Instr.nor 0 0 1).wellFormed = true := by decide

theorem witness_EncodedWordDecodesToItsInputs :
    encoded ⟨2, 7, 7, 5, -1⟩ = .inl (some 12582911) ∧ encoded ⟨5, 1, 0, 3, 3⟩ = .inl (some 21495808) := by decide

theorem witness_AddWritesWrappedSum_and_NorWritesBitwiseNor :
    (0 : BitVec 16).toNat = (0 : RegIdx).val ∧ (7 : BitVec 16).toNat = (7 : RegIdx).val := by decide

theorem witness_RFormatReservedBitsRaiseInvalidRegister :
    7 < (8 : BitVec 16).toNat ∧ dispatch 655368#32 = some (.add 1 2 8) ∧
      dispatch 4194312#32 = some (.nor 0 0 8) ∧ (small 0 [(0, 655368)] []).memWord 0 = 655368#32 ∧
      (small 65535 [(65535, 4194312)] []).memWord 65535 = 4194312#32 ∧
      (small 65535 [(65535, 4194312)] []).run = .running := by decide

/-- Clauses of `lw` and `sw` at the two edges of the memory, on both sides. -/
theorem witness_LwAndSw_effectiveAddress :
    (small 0 [] [(1, 1)]).effectiveAddress 1 0xFFFF = 0 ∧
      (small 0 [] [(1, 65536)]).effectiveAddress 1 0xFFFF = 65535 ∧
      (small 0 [] [(1, 65535)]).effectiveAddress 1 1 = 65536 ∧
      (small 0 [] []).effectiveAddress 0 0xFFFF = -1 := by decide

/-- `sw` to `npc`. -/
theorem witness_SwStoresOneWordAtItsAddress_npc :
    (small 1 [] []).effectiveAddress 0 2 = (small 1 [] []).pc + 1 := by decide

/-- `beq` out of the memory on both sides, from a Running core. -/
theorem witness_BeqBranchesOnEqualRegisters :
    (small 0 [] []).run = .running ∧ (small 0 [] []).reg 0 = (small 0 [] []).reg 0 ∧
      (after (exec (.beq 0 0 0xFFFE) (small 0 [] []))).map (·.pc) = some (-1) ∧
      (after (exec (.beq 1 1 0) (small 65535 [] []))).map (·.pc) = some 65536 ∧
      (small 0 [] [(1, 1)]).reg 1 ≠ (small 0 [] [(1, 1)]).reg 0 := by decide

theorem witness_JalrLinksThenJumps :
    (0 : Int) ≤ (small 65535 [] []).pc ∧ (small 65535 [] []).pc ≤ 65535 ∧ (1 : RegIdx) ≠ 2 := by decide

theorem witness_NoopOnlyAdvancesThePc :
    (small 65535 [] []).run = .running ∧ (small 65535 [] []).pc = 65535 := by decide

theorem witness_StepRunsTheDecodedInstruction :
    (small 65535 [(65535, 29360128)] []).run = .running ∧ legal ((small 65535 [(65535, 29360128)] []).memWord 65535) =
      some .noop ∧ (small 0 [(0, 655368)] []).run = .running ∧
      dispatch ((small 0 [(0, 655368)] []).memWord 0) = some (.add 1 2 8) := by decide

theorem witness_StoppedCoreNeverChanges :
    (small 0 [] []).halt.verdict = some true ∧ (small 0 [] []).verdict = none ∧
      ((small 0 [] []).takeFault .pcOutOfRange 0).verdict = some false := by decide

/-- `beq 3 3 -1` at the last address. -/
theorem witness_SelfBranchNeverEnds :
    (small 65535 [(65535, 0x011BFFFF)] []).run = .running ∧
      (small 65535 [(65535, 0x011BFFFF)] []).nextInstr.toOption = some (.beq 3 3 0xFFFF) := by decide

/-- Each arm of the priority chain is reached: the fetch, bit 25 with bit 3 too, bit 3, the address, and none. -/
theorem witness_FirstFailingCheckIsTheFault :
    (after (step (small 65536 [] []))).map (·.faultCause) = some .pcOutOfRange ∧
      (after (step (small 0 [(0, 33554440)] []))).map (·.faultCause) = some .unsupportedOpcode ∧
      (after (step (small 0 [(0, 8)] []))).map (·.faultCause) = some .invalidRegister ∧
      (after (step (small 0 [(0, 0x0080FFFF)] []))).map (·.faultCause) = some .memoryBounds ∧
      (after (step (small 0 [(0, 7)] []))).map (·.faultCause) = some .noFault := by decide

theorem witness_FetchOutsideMemoryRaisesPcOutOfRange :
    (small 65536 [] []).run = .running ∧ 65535 < (small 65536 [] []).pc ∧ (small (-1) [] []).pc < 0 := by decide

theorem witness_HighBitsRaiseUnsupportedOpcode :
    (small 65535 [(65535, 33554432)] []).run = .running ∧
      ((small 65535 [(65535, 33554432)] []).memWord 65535).extractLsb 31 25 ≠ 0 := by decide

theorem witness_AccessOutsideMemoryRaisesMemoryBounds :
    (small 0 [] []).effectiveAddress 0 0xFFFF < 0 ∧ 65535 < (small 0 [] [(1, 65536)]).effectiveAddress 1 0 ∧
      (small 0 [] []).faultCause ≠ .memoryBounds ∧
      (after (exec (.lw 0 1 0xFFFF) (small 0 [] []))).map (·.faultCause) = some .memoryBounds := by decide

/-- A step that commits, one that faults, and a `sw` that commits at the last word, all from a Running core. -/
theorem witness_StepCommitsWhollyOrOnlyFaults :
    (small 0 [(0, 0)] []).run = .running ∧ (after (step (small 0 [(0, 0)] []))).map (·.run) = some .running ∧
      (small 0 [(0, 8)] []).run = .running ∧ (after (step (small 0 [(0, 8)] []))).map (·.run) = some .faulted ∧
      (small 0 [(0, 0x00CA8000)] [(1, 98303)]).nextInstr.toOption = some (.sw 1 2 0x8000) ∧
      (after (step (small 0 [(0, 0x00CA8000)] [(1, 98303)]))).map (·.run) = some .running := by
  decide

theorem witness_OffsetRangeIsNeverRecorded :
    (small 0 [(0, 8)] []).faultCause ≠ .offsetRange ∧ (after (step (small 0 [(0, 8)] []))).isSome = true := by decide

/-- A taken branch, a jump, a plain instruction and a fault. -/
theorem witness_PcAfterEachInstruction :
    (small 5 [(5, 16842748)] []).nextInstr.toOption = some (.beq 0 0 0xFFFC) ∧
      (small 4 [(4, 21626880)] []).nextInstr.toOption = some (.jalr 1 2) ∧
      (small 0 [(0, 29360128)] []).nextInstr.toOption = some .noop ∧
      (small 0 [(0, 8)] []).nextInstr.toOption = some (.add 0 0 8) := by decide

theorem witness_OnlyTheNamedDestinationChanges :
    (after (exec (.jalr 1 2) (small 4 [] []))).map (·.reg 2) ≠ some ((small 4 [] []).reg 2) := by decide

theorem witness_RegisterZeroIsOrdinary :
    (5 : BitVec 16).toNat = (5 : RegIdx).val ∧ 0 ≤ (small 0 [] []).effectiveAddress 0 5 ∧
      (small 0 [] []).effectiveAddress 0 5 ≤ 65535 ∧ writtenReg (.lw 0 1 5) ≠ some 0 := by decide

/-- Both verdicts of `MemWrite` at the edges of the memory, and an instruction that is no `sw`. -/
theorem witness_MemoryWordsChangeOnlyByStores :
    ((small 0 [] []).memWrite 65535 5).isSome = true ∧ (small 0 [] []).memWrite 65536 5 = none ∧
      (small 0 [] []).memWrite ((small 0 [] []).effectiveAddress 0 0xFFFF) ((small 0 [] []).reg 1) = none ∧
      ((small 0 [] []).memWrite ((small 0 [] []).effectiveAddress 0 5) ((small 0 [] []).reg 1)).isSome = true ∧
      (after (exec .noop (small 0 [] []))).isSome = true := by decide

theorem witness_LoadAfterStoreReadsTheStoredWord :
    0 ≤ (small 0 [] [(1, 65536)]).effectiveAddress 1 0xFFFF ∧
      (small 0 [] [(1, 65536)]).effectiveAddress 1 0xFFFF ≤ 65535 := by decide

/-- `sw 0 1 2` at 1 stores to the next address, and `sw 0 1 1` at 1 to its own. -/
theorem witness_StoreIsSeenByTheNextFetch :
    (small 1 [(1, 12648450)] []).nextInstr.toOption = some (.sw 0 1 2) ∧
      (small 1 [(1, 12648450)] []).effectiveAddress 0 2 = (small 1 [(1, 12648450)] []).pc + 1 ∧
      (small 1 [(1, 12648449)] []).nextInstr.toOption = some (.sw 0 1 1) ∧
      (small 1 [(1, 12648449)] []).effectiveAddress 0 1 = (small 1 [(1, 12648449)] []).pc := by decide

/-- Two states that differ in word 9 only, which a `lw 0 1 5` at 0 neither fetches nor loads. -/
theorem witness_UnreadWordDoesNotInfluenceTheStep :
    let s := small 0 [(0, 8454149), (5, 10), (9, 1)] []
    let s' := small 0 [(0, 8454149), (5, 10), (9, 2)] []
    s' = { s with mem := s'.mem } ∧ (∀ n, n ≠ 9 → s'.memWord n = s.memWord n) ∧ s.pc ≠ 9 ∧
      s.nextInstr.toOption = some (.lw 0 1 5) ∧ s.effectiveAddress 0 5 ≠ 9 ∧
      (∃ t, step s = .next t) ∧ ∃ t', step s' = .next t' := by
  refine ⟨by decide, fun n hn => ?_, by decide, by decide, by decide, ⟨_, rfl⟩, ⟨_, rfl⟩⟩
  have h : ∀ v, (small 0 [(0, 8454149), (5, 10), (9, v)] []).mem = [(0, 8454149), (5, 10), (9, v)] := fun _ => rfl
  simp only [State.memWord, h, Memory.word?, if_neg hn]

/-- T3: label 5, `beq` at address 2. -/
theorem witness_BeqDisplacementReachesTheLabel :
    (2 : BitVec 16).toInt = beqDisplacement 5 (small 2 [] []).pc ∧
      (small 2 [] []).reg 1 = (small 2 [] []).reg 2 := by decide

/-- A fetch, a `lw` and a `sw` with their ports valid, at both ends of the memory. -/
theorem witness_MemoryPortsCarryEveryAccess :
    (small 0 [(0, 8454149), (5, 10)] []).iAddrPort = some 0 ∧ (small 65535 [] []).iAddrPort = some 65535 ∧
      (small 0 [(0, 8454149), (5, 10)] []).run = .running ∧
      (small 0 [(0, 8454149), (5, 10)] []).nextInstr.toOption = some (.lw 0 1 5) ∧
      (small 0 [(0, 8454149), (5, 10)] []).effectiveAddress 0 5 = 5 ∧
      (small 0 [(0, 8454149), (5, 10)] []).dataPort false = some ⟨5, false, 0⟩ ∧
      (small 0 [(0, 12779532)] [(3, 15)]).nextInstr.toOption = some (.sw 0 3 12) ∧
      (small 0 [(0, 12779532)] [(3, 15)]).dataPort false = some ⟨12, true, 15⟩ ∧
      (small 0 [(0, 0x00CA8000)] [(1, 98303)]).dataPort false = some ⟨65535, true, 0⟩ := by decide

/-- R27: `d_we` is 1 only in a step that commits, and with `rst = 1` no step is taken (70_reset_and_hazards.md R170). -/
theorem test_data_port_in_reset_writes_nothing :
    (small 0 [(0, 12779532)] [(3, 15)]).dataPort true = some ⟨12, false, 15⟩ ∧
      (after (clockEdge true (small 0 [(0, 12779532)] [(3, 15)]))).map (·.mem) = some [(0, 12779532)] := by decide

/-- The widest info: an effective address that needs 33 bits. -/
theorem witness_StatusPortsHoldEveryValue :
    ((small 0 [(0, 9076735)] [(1, 2147483647)]).takeFault .memoryBounds 2147516414).Inv :=
  ⟨by decide, ⟨by decide, by decide⟩, ⟨by decide, by decide⟩, ⟨rfl, by decide, by decide, by decide⟩⟩

/-- A Running state with the invariant, and the largest count that 32 bits hold. -/
theorem witness_StatusPortsHoldEveryValue_running :
    State.reset.Inv ∧ State.reset.run ≠ .faulted ∧ { State.reset with icount := 2 ^ 32 - 1 }.icount < 2 ^ 32 ∧ 32 ≤ 64 :=
  ⟨witness_EveryStepKeepsInvariant.1, by decide, by decide, by decide⟩

/-- R46: the lines -1 and 25165824 in order, at addresses 0 and 1. -/
theorem test_launchFile_places_lines :
    (State.reset.launchFile [-1, 25165824]).map (·.mem) = some [(0, 0xFFFFFFFF), (1, 0x01800000)] := by decide

/-- R46, decision D16: one line outside the signed 32-bit range, wherever it stands, refuses the file. -/
theorem test_launchFile_refuses_one_bad_line :
    State.reset.launchFile [29360128, 2147483648] = none ∧ State.reset.launchFile [-2147483649, 0] = none := by decide

/-- Both ends of the range of a line. -/
theorem witness_LaunchFilePlacesLineByLine :
    (∀ n ∈ ([-2147483648, 2147483647] : List Int), -2 ^ 31 ≤ n ∧ n ≤ 2 ^ 31 - 1) ∧
      ([-2147483648, 2147483647] : List Int).length ≤ 65536 ∧
      ∃ n ∈ ([0, 2147483648] : List Int), n < -2 ^ 31 ∨ 2 ^ 31 - 1 < n := by decide

theorem witness_LaunchFilePlacesLineByLine_tooLong : 65536 < (List.replicate 65537 (0 : Int)).length := by
  rw [List.length_replicate]; decide

theorem witness_IFormatWordIsItsFieldsSideBySide :
    encoded ⟨2, 7, 7, 0, -1⟩ = .inl (some 12582911) ∧ dispatch 0x00BFFFFF#32 = some (.lw 7 7 0xFFFF) ∧
      (Instr.lw 7 7 0xFFFF).opcode = 2 ∧ (Instr.beq 0 0 0).opcode = 4 := by decide

/-- Every read register of these is one of its row's; the rows' forms at their boundary values. -/
theorem witness_RegistersAreAccessedAsTheTableSays_rows :
    (Instr.add 1 1 1).wellFormed = true ∧ 1 ∈ readRegs (.add 1 1 1) ∧ 7 ∈ readRegs (.sw 0 7 0) ∧
      2 ∈ readRegs (.beq 1 2 0) ∧ 4 ∈ readRegs (.jalr 4 0) ∧ (0 : BitVec 16).toNat = (0 : RegIdx).val ∧
      ((small 0 [] [(1, 1)]).reg 1).toInt + (0xFFFF : BitVec 16).toInt = 0 ∧
      ((small 0 [] [(1, 65536)]).reg 1).toInt + (0xFFFF : BitVec 16).toInt = 65535 := by decide

/-- A register that `lw 0 1 5` does not read and writes, one that it does not read and leaves, and old `x[3]` in `jalr 3 3`. -/
theorem witness_RegistersAreAccessedAsTheTableSays :
    1 ∉ readRegs (.lw 0 1 5) ∧ writtenReg (.lw 0 1 5) = some 1 ∧ 2 ∉ readRegs (.lw 0 1 5) ∧
      writtenReg (.lw 0 1 5) ≠ some 2 ∧ 3 ∉ readRegs (.jalr 3 3) ∧ (small 0 [] []).run = .running ∧
      (after (exec (.lw 0 1 5) (small 0 [(5, 10)] []))).map (·.run) = some .running ∧
      (after (exec (.lw 0 1 5) ((small 0 [(5, 10)] []).writeReg 1 9))).map (·.reg 1) = some 10#32 := by decide

/-- Registers 0 and 1 exchanged. -/
def exchange (r : RegIdx) : RegIdx := if r = 0 then 1 else if r = 1 then 0 else r

theorem witness_NoRegisterIsSpecial :
    (∀ r r', exchange r = exchange r' → r = r') ∧ (Instr.add 0 1 0).wellFormed = true ∧
      small 0 [] [(0, 5), (1, 6)] = { small 0 [] [(0, 6), (1, 5)] with regs := (small 0 [] [(0, 5), (1, 6)]).regs } ∧
      (∀ r, (small 0 [] [(0, 5), (1, 6)]).reg (exchange r) = (small 0 [] [(0, 6), (1, 5)]).reg r) ∧
      (after (exec (.add 0 1 0) (small 0 [] [(0, 6), (1, 5)]))).map (·.reg 0) = some 11#32 ∧
      (after (exec (renameRegs exchange (.add 0 1 0)) (small 0 [] [(0, 5), (1, 6)]))).map (·.reg 1) = some 11#32 ∧
      -32768 ≤ (32767 : Int) := by decide

/-- R5: both ends of the range of a field. -/
theorem witness_WordsAreNumberedFromBitZero : field 0x80000001#32 31 31 = 1 ∧ field 0x80000001#32 0 0 = 1 ∧
    field 0x80000001#32 31 0 = 2147483649 := by decide

end Sys2Proof.Tests
end

section
/-! The bits of a number, of a field and of a word (00_scope.md R5). -/

namespace Sys2Proof

open Machine (unsigned)

/-- The low `n` bits of a number, read as a number, are the sum of those bits times their powers of two. -/
theorem mod_two_pow_eq_sum_testBit (x n : Nat) :
    x % 2 ^ n = ∑ k ∈ Finset.range n, (x.testBit k).toNat * 2 ^ k := by
  induction n with
  | zero => simp [Nat.mod_one]
  | succ n ih => rw [Nat.mod_pow_succ, Finset.sum_range_succ, ← ih, Nat.toNat_testBit, Nat.mul_comm (2 ^ n)]

/-- Bit `k` of a field is bit `lo + k` of the word; for any `hi` and `lo`, since bits above 31 are 0. -/
theorem field_eq_sum_bits (w : Word) (hi lo : Nat) :
    field w hi lo = ∑ k ∈ Finset.range (hi - lo + 1), (w.getLsbD (lo + k)).toNat * 2 ^ k := by
  rw [field, mod_two_pow_eq_sum_testBit]
  simp only [Nat.testBit_div_two_pow, BitVec.getLsbD, Nat.add_comm]

/-- The field of all 32 bits is the unsigned value of the word. -/
theorem unsigned_eq_field (w : Word) : unsigned w = field w 31 0 := by
  have := w.isLt
  simp only [unsigned, field]; omega

/-- In `a ++ b` the part `a` is high: its value counts in units of `2 ^ n`. -/
theorem toNat_append_eq_mul_add {m n : Nat} (a : BitVec m) (b : BitVec n) :
    (a ++ b).toNat = a.toNat * 2 ^ n + b.toNat := by
  rw [BitVec.toNat_append, ← Nat.shiftLeft_add_eq_or_of_lt b.isLt, Nat.shiftLeft_eq]

/-- A word is its five fields side by side (30_encoding.md R51). -/
theorem word_eq_append_fields (w : Word) :
    w = BitVec.ofNat 7 (field w 31 25) ++ BitVec.ofNat 3 (field w 24 22) ++ BitVec.ofNat 3 (field w 21 19) ++
      BitVec.ofNat 3 (field w 18 16) ++ BitVec.ofNat 16 (field w 15 0) := by
  apply BitVec.eq_of_toNat_eq
  have := w.isLt
  simp only [toNat_append_eq_mul_add, BitVec.toNat_ofNat, field]; omega

/-- Settles O49: the bits of a field are summed by induction on its width, and the unsigned value is the field of all bits. -/
theorem wordsAreNumberedFromBitZero : Obligations.WordsAreNumberedFromBitZero := by
  refine ⟨fun w hi lo _ _ => field_eq_sum_bits w hi lo, fun w => ?_,
    fun _ _ a b => toNat_append_eq_mul_add a b, word_eq_append_fields⟩
  rw [unsigned_eq_field, field_eq_sum_bits]
  simp only [Nat.zero_add, Nat.sub_zero, Nat.reduceAdd]

end Sys2Proof
end

section
/-! The other direction of `exec_answers`, and the ranges of what a fault records (60_exceptions.md R147). -/

namespace Sys2Proof.Machine

/-- Every answer of an instruction is what `exec` gives, so `Answers` is `exec` said as a relation. -/
theorem exec_of_answers {i : Instr} {s t : State} (h : Answers i s t) : exec i s = .next t := by
  cases i with
  | add a b dest | nor a b dest =>
    obtain ⟨hd, rfl⟩ | ⟨d, hd, rfl⟩ := h <;> simp only [exec, execAdd, execNor, State.rFormat, hd]
  | lw a b raw16 => obtain ⟨hi, rfl⟩ | ⟨hi, rfl⟩ := h <;> simp [exec, execLw, State.memRead, hi]
  | sw a b raw16 => obtain ⟨hi, rfl⟩ | ⟨hi, rfl⟩ := h <;> simp [exec, execSw, State.memWrite, hi]
  | beq a b raw16 => simp only [Answers] at h; simp only [exec, execBeq, wordsEqual, decide_eq_true_eq, h]
  | jalr a b | halt | noop => exact congrArg _ h.symm

/-- The effective address needs 33 bits at most (42_load_store.md R110). -/
theorem State.effectiveAddress_range (s : State) (a : RegIdx) (raw16 : BitVec 16) :
    -2 ^ 31 - 32768 ≤ s.effectiveAddress a raw16 ∧ s.effectiveAddress a raw16 ≤ 2 ^ 31 + 32766 := by
  have := signed_range (s.reg a)
  have := sext32_range raw16
  simp only [State.effectiveAddress]; omega

/-- A word that is not dispatched has one of bits 31:25 set (60_exceptions.md R142). -/
theorem unsigned_range_of_dispatch_none {w : Word} (h : dispatch w = none) :
    2 ^ 25 ≤ unsigned w ∧ unsigned w < 2 ^ 32 := by
  have hf := (dispatch_eq_none_iff w).mp h
  have := w.isLt
  simp only [field, unsigned] at *; omega

/-- An R-format word whose register check fails has one of bits 15:3 set and none of bits 31:23
(60_exceptions.md R143). -/
theorem unsigned_range_of_badDest {w : Word} {a b : RegIdx} {dest : BitVec 16}
    (h : dispatch w = some (.add a b dest) ∨ dispatch w = some (.nor a b dest)) (hd : destReg? dest = none) :
    8 ≤ unsigned w ∧ unsigned w < 2 ^ 23 := by
  have hgt : 7 < dest.toNat := by
    rcases destReg?_cases dest with ⟨_, d, _, hs⟩ | ⟨hgt, _⟩
    · simp [hd] at hs
    · exact hgt
  have hw := w.isLt
  have hraw := raw16Of_toNat w
  obtain ⟨hhigh, hop, rfl⟩ : field w 31 25 = 0 ∧ field w 24 22 ≤ 1 ∧ dest = raw16Of w := by
    rcases h with h | h <;> obtain ⟨hhigh, hop, -, -, hdest⟩ := dispatch_eq_some h <;>
      exact ⟨hhigh, by simp [hop, Instr.opcode], hdest⟩
  simp only [field, unsigned] at *; omega

end Sys2Proof.Machine
end

section
/-! The invariant (10_state.md R15, R17, R20) at reset, across the shared operations of a step, and across every
step. -/

namespace Sys2Proof.Machine

/-- A core that is not Faulted has the discipline exactly when its record is clear. -/
theorem State.recordOk_iff_clear {s : State} (h : s.run ≠ .faulted) : s.recordOk ↔ s.recordClear := by
  cases hr : s.run with
  | running | halted => simp only [State.recordOk, hr]
  | faulted => exact absurd hr h

/-- A register write touches nothing the invariant speaks of. -/
theorem State.Inv.writeReg {s : State} (h : s.Inv) (r : RegIdx) (v : Word) : (s.writeReg r v).Inv := h

/-- A store in bounds keeps the canonical form. -/
theorem State.Inv.put {s : State} (h : s.Inv) {addr : Int} (ha : inMemory addr = true) (v : Word) :
    State.Inv { s with mem := s.mem.put addr.toNat v } := by
  obtain ⟨hmem, hrest⟩ := h
  have := (inMemory_iff addr).mp ha
  exact ⟨Memory.put_wf v hmem (by omega), hrest⟩

/-- Halting a Running core leaves its record clear. -/
theorem State.Inv.halt {s : State} (h : s.Inv) (hr : s.run = .running) : s.halt.Inv := by
  obtain ⟨hmem, hpc, hfpc, hrec⟩ := h
  exact ⟨hmem, hpc, hfpc, (State.recordOk_iff_clear (s := s) (by simp [hr])).mp hrec⟩

/-- A commit moves the pc only; a record that is clear does not name it. -/
theorem State.Inv.commit {s : State} (h : s.Inv) (hr : s.run ≠ .faulted) {target : Int} (ht : fitsSigned32 target) :
    (s.commit target).Inv := by
  obtain ⟨hmem, _, hfpc, hrec⟩ := h
  have hclear : (s.commit target).recordClear := (State.recordOk_iff_clear hr).mp hrec
  exact ⟨hmem, ht, hfpc, (State.recordOk_iff_clear (s := s.commit target) hr).mpr hclear⟩

/-- Taking a fault records the pc, so only the info is left to check. -/
theorem State.Inv.takeFault {s : State} (h : s.Inv) {cause : FaultCause} {info : Int}
    (hm : (s.takeFault cause info).recordMeaningful) : (s.takeFault cause info).Inv := by
  obtain ⟨hmem, hpc, _, _⟩ := h
  exact ⟨hmem, hpc, hpc, rfl, hm⟩

/-- The info of `MemoryBounds` is the address that is out of range. -/
theorem State.takeFault_memoryBounds_meaningful {s : State} {a : RegIdx} {raw16 : BitVec 16}
    (h : inMemory (s.effectiveAddress a raw16) = false) :
    (s.takeFault .memoryBounds (s.effectiveAddress a raw16)).recordMeaningful :=
  ⟨(s.effectiveAddress_range a raw16).1, (s.effectiveAddress_range a raw16).2, h⟩

/-- What the front of a step raises is recorded with an info that fits its cause. -/
theorem State.takeFault_raise_meaningful {s : State} {r : Raise} (h : s.nextInstr = .error r) :
    (s.takeFault r.cause r.info).recordMeaningful := by
  rcases s.nextInstr_cases with ⟨hpc, hn⟩ | ⟨_, hd, hn⟩ | ⟨_, i, _, hn⟩
  · obtain rfl := Except.error.inj (hn.symm.trans h)
    exact ⟨rfl, hpc⟩
  · obtain rfl := Except.error.inj (hn.symm.trans h)
    exact unsigned_range_of_dispatch_none hd
  · simp [hn] at h

/-- An instruction that a step runs was fetched from inside the memory and dispatched. -/
theorem State.nextInstr_ok {s : State} {i : Instr} (h : s.nextInstr = .ok i) :
    inMemory s.pc = true ∧ dispatch s.fetchedWord = some i := by
  rcases s.nextInstr_cases with ⟨_, hn⟩ | ⟨_, _, hn⟩ | ⟨hpc, j, hd, hn⟩
  · simp [hn] at h
  · simp [hn] at h
  · obtain rfl := Except.ok.inj (hn.symm.trans h)
    exact ⟨hpc, hd⟩

/-- The meaning of a fetched instruction keeps the invariant of a Running core: from inside the memory `npc` and every branch
target fit 32 signed bits, and so does every register. -/
theorem State.Inv.answers {i : Instr} {s t : State} (h : s.Inv) (hr : s.run = .running) (hn : s.nextInstr = .ok i)
    (ha : Answers i s t) : t.Inv := by
  obtain ⟨hpc, hd⟩ := State.nextInstr_ok hn
  rw [inMemory_iff] at hpc
  have hrun : s.run ≠ .faulted := by simp [hr]
  have hnpc : fitsSigned32 s.npc := by simp only [fitsSigned32, State.npc]; omega
  cases i with
  | add a b dest | nor a b dest =>
    obtain ⟨hdest, rfl⟩ | ⟨d, _, rfl⟩ := ha
    · exact h.takeFault (unsigned_range_of_badDest (a := a) (b := b) (by simp [hd]) hdest)
    · exact (h.writeReg _ _).commit hrun hnpc
  | lw a b raw16 =>
    obtain ⟨hi, rfl⟩ | ⟨_, rfl⟩ := ha
    · exact h.takeFault (State.takeFault_memoryBounds_meaningful hi)
    · exact (h.writeReg _ _).commit hrun hnpc
  | sw a b raw16 =>
    obtain ⟨hi, rfl⟩ | ⟨hi, rfl⟩ := ha
    · exact h.takeFault (State.takeFault_memoryBounds_meaningful hi)
    · exact (h.put hi _).commit hrun hnpc
  | beq a b raw16 =>
    obtain rfl := ha
    have := sext32_range raw16
    refine h.commit hrun ?_
    simp only [fitsSigned32, State.branchTarget, State.npc]; split <;> omega
  | jalr a b =>
    obtain rfl := ha
    exact (h.writeReg _ _).commit hrun (signed_range _)
  | halt =>
    obtain rfl := ha
    exact (h.halt hr).commit (by simp) hnpc
  | noop =>
    obtain rfl := ha
    exact h.commit hrun hnpc

/-- Settles O6, over the three things a step can do. -/
theorem everyStepKeepsInvariant : Obligations.EveryStepKeepsInvariant := by
  intro s t h hstep
  obtain ⟨_, rfl⟩ | ⟨_, r, hn, rfl⟩ | ⟨hr, i, hn, ha⟩ := step_cases hstep
  · exact h
  · exact h.takeFault (State.takeFault_raise_meaningful hn)
  · exact h.answers hr hn ha

/-- Settles O5: the listing is empty, both pcs are 0, the record is clear, and a Running core is not Halted. -/
theorem invariantHoldsAtReset : Obligations.InvariantHoldsAtReset := by
  have hzero : fitsSigned32 0 := by simp [fitsSigned32]
  exact ⟨⟨State.reset_mem_wf, hzero, hzero, rfl, rfl, rfl⟩, fun h => nomatch h⟩

/-- Settles O1: the fields by the laws of `State.reset`; no word is listed, so each is the free value at its address. -/
theorem resetStateValues : Obligations.ResetStateValues :=
  ⟨State.reset_pc, State.reg_reset, State.reset_run, State.reset_faultCause, State.reset_faultPc, State.reset_faultInfo,
    State.reset_icount, fun _ => rfl, rfl⟩

end Sys2Proof.Machine
end

section
/-! What a stopped core, the pc and the registers do in a step (10_state.md R14, R16, R19). -/

namespace Sys2Proof.Machine

/-! ## A stopped core -/

/-- There is a verdict exactly when the core has stopped (40_step_cycle.md R90). -/
theorem State.verdict_ne_none_iff (s : State) : s.verdict ≠ none ↔ s.run ≠ .running := by
  cases h : s.run <;> simp [State.verdict, h]

/-- A stopped core takes no step (40_step_cycle.md R81). -/
theorem step_of_stopped {s : State} (h : s.run ≠ .running) : step s = .next s := by
  cases hr : s.run with
  | running => exact absurd hr h
  | halted | faulted => simp only [step, hr]

/-- A state that a step leaves as it is, any number of steps leaves as it is. -/
theorem core_run_of_step_self {s : State} (h : step s = .next s) (k : Nat) : Host.Core.run core k s = .next s := by
  have hcore : Host.Core.step core s = .next s := h
  induction k with
  | zero => rfl
  | succ k ih => simp only [Host.Core.run, hcore, ih]

/-- Settles O27: the verdict by the three run states, the run by induction on the number of cycles. -/
theorem stoppedCoreNeverChanges : Obligations.StoppedCoreNeverChanges := by
  refine fun s => ⟨?_, ?_, fun hv k => ?_⟩
  · cases h : s.run <;> simp [State.verdict, h]
  · cases h : s.run <;> simp [State.verdict, h]
  · exact core_run_of_step_self (step_of_stopped (s.verdict_ne_none_iff.mp hv)) k

/-! ## The pc -/

/-- Settles O35, over the answers of the fetched instruction: a fault leaves the pc, and a commit puts the target there. -/
theorem pcAfterEachInstruction : Obligations.PcAfterEachInstruction := by
  intro s t i hr hn hstep
  rw [step_of_nextInstr hr hn] at hstep
  have ha := exec_answers hstep
  cases i with
  | add a b dest | nor a b dest | lw a b raw16 | sw a b raw16 =>
    obtain ⟨_, rfl⟩ | ⟨_, _, rfl⟩ := ha <;> simp [hr, State.npc]
  | beq a b raw16 => obtain rfl := ha; simp [hr, State.branchTarget, State.npc, sext32_eq_toInt]
  | jalr a b => obtain rfl := ha; simp [hr, State.link, signed_eq_toInt]
  | halt | noop => obtain rfl := ha; simp [hr, State.npc]

/-! ## The registers -/

/-- A destination field in range names the register of that number (30_encoding.md R59). -/
theorem destReg?_of_toNat_eq {dest : BitVec 16} {d : RegIdx} (h : dest.toNat = d.val) :
    destReg? dest = some d := by
  rcases destReg?_cases dest with ⟨_, e, he, hs⟩ | ⟨hgt, _⟩
  · rw [hs, Fin.ext (he.trans h)]
  · omega

/-- The register that a valid destination field names is the one the table names as written (10_state.md R14). -/
theorem writtenReg_of_destReg? {dest : BitVec 16} {d : RegIdx} (h : destReg? dest = some d) (a b : RegIdx) :
    writtenReg (.add a b dest) = some d ∧ writtenReg (.nor a b dest) = some d := by
  simp only [destReg?, Option.ite_none_right_eq_some, Option.some.injEq] at h
  simp only [writtenReg, h.2, and_self]

/-- The ALU's sum is Lean's own addition of words (41_alu_add_nor.md R100). -/
theorem aluAdd_eq_add (v w : Word) : aluAdd v w = v + w := by
  apply BitVec.eq_of_toNat_eq
  have := trunc32_toNat (unsigned v + unsigned w)
  simp only [aluAdd, unsigned, BitVec.toNat_add] at *; omega

/-- `trunc_32` is Lean's own reduction of an integer to a word (00_scope.md R7). -/
theorem trunc32_eq_ofInt (n : Int) : trunc32 n = BitVec.ofInt 32 n := by
  apply BitVec.eq_of_toNat_eq
  have := trunc32_toNat n
  simp only [BitVec.toNat_ofInt] at *; omega

/-- Of the registers, an instruction changes at most the one it names as written (10_state.md R14). -/
theorem Answers.reg_eq {i : Instr} {s t : State} {r : RegIdx} (h : Answers i s t) (hw : writtenReg i ≠ some r) :
    t.reg r = s.reg r := by
  cases i with
  | add a b dest | nor a b dest =>
    obtain ⟨_, rfl⟩ | ⟨d, hd, rfl⟩ := h
    · rfl
    · have hrd : r ≠ d := fun e => hw (by simp [writtenReg_of_destReg? hd, e])
      simp [hrd]
  | lw a b raw16 =>
    obtain ⟨_, rfl⟩ | ⟨_, rfl⟩ := h
    · rfl
    · have hrb : r ≠ b := fun e => hw (congrArg some e.symm)
      simp [hrb]
  | sw a b raw16 => obtain ⟨_, rfl⟩ | ⟨_, rfl⟩ := h <;> rfl
  | jalr a b =>
    obtain rfl := h
    have hrb : r ≠ b := fun e => hw (congrArg some e.symm)
    simp [State.link, hrb]
  | beq a b raw16 | halt | noop => obtain rfl := h; rfl

/-- Settles O36: it is the contrapositive of the frame of the registers. -/
theorem onlyTheNamedDestinationChanges : Obligations.OnlyTheNamedDestinationChanges :=
  fun _ _ _ _ h => not_imp_comm.mp (exec_answers h).reg_eq

/-- `jalr` leaves the low 32 bits of `npc` in the register it links, whichever that is (43_control_transfer.md R121). -/
theorem exec_jalr_link (s : State) (a b : RegIdx) :
    ∃ t, exec (.jalr a b) s = .next t ∧ ((t.reg b).toNat : Int) = (s.pc + 1) % 2 ^ 32 := by
  refine ⟨_, exec_of_answers rfl, ?_⟩
  rw [← trunc32_toNat]
  simp [State.link, State.npc]

/-! ## Register 0 and the encoder -/

/-- The encoder's register check passes every register number (30_encoding.md R65). -/
@[simp] theorem encoderRegOk_reg (a : RegIdx) : encoderRegOk a.val = true := by
  have := a.isLt
  simp only [encoderRegOk, decide_eq_true_eq]; omega

/-- The encoder refuses R-format destination 0 (30_encoding.md R65). -/
theorem encoderBlock_rFormat_dest_zero {op : Fin 8} (h : op.val ≤ 1) (a b : RegIdx) (off : Int) :
    encoderBlock ⟨op, a.val, b.val, 0, off⟩ = .error .invalidRegister := by
  simp [encoderBlock, EncoderInput.error?, formatOf, h]

/-- The encoder accepts every register in the written field of `lw` when the offset is in range (30_encoding.md R65). -/
theorem encoderBlock_lw_ok (a b : RegIdx) {off : Int} (h : -32768 ≤ off ∧ off ≤ 32767) :
    ∃ w, encoderBlock ⟨2, a.val, b.val, 0, off⟩ = .ok w := by
  have hoff : encoderOffOk off = true := by simpa only [encoderOffOk, decide_eq_true_eq] using h
  exact ⟨_, by simp [encoderBlock, EncoderInput.error?, formatOf, hoff]; rfl⟩

/-- The encoder accepts every register in the written field of `jalr` (30_encoding.md R65). -/
theorem encoderBlock_jalr_ok (a b : RegIdx) (off : Int) : ∃ w, encoderBlock ⟨5, a.val, b.val, 0, off⟩ = .ok w :=
  ⟨_, by simp [encoderBlock, EncoderInput.error?, formatOf]; rfl⟩

/-- Settles O37: each writing instruction into register 0, the frame of the registers, and the encoder's checks. -/
theorem registerZeroIsOrdinary : Obligations.RegisterZeroIsOrdinary := by
  refine ⟨State.reg_reset 0, fun s a b dest d hd => ⟨?_, ?_⟩, fun s a raw16 h0 h1 => ?_, fun s a => exec_jalr_link s a 0,
    fun s t i h hw => (exec_answers h).reg_eq hw, fun a b op off h => encoderBlock_rFormat_dest_zero h a b off,
    fun a off h0 h1 => encoderBlock_lw_ok a 0 ⟨h0, h1⟩, fun a off => encoderBlock_jalr_ok a 0 off⟩
  · refine ⟨_, _, exec_of_answers (.inr ⟨0, rfl, rfl⟩), exec_of_answers (.inr ⟨d, destReg?_of_toNat_eq hd, rfl⟩), ?_, ?_⟩ <;>
      simp [aluAdd_eq_add]
  · refine ⟨_, _, exec_of_answers (.inr ⟨0, rfl, rfl⟩), exec_of_answers (.inr ⟨d, destReg?_of_toNat_eq hd, rfl⟩), ?_, ?_⟩ <;>
      simp [aluNor]
  · refine ⟨_, exec_of_answers (.inr ⟨(inMemory_iff _).mpr ⟨h0, by omega⟩, rfl⟩), by simp⟩

end Sys2Proof.Machine
end

section
/-! The ports (10_state.md R27): the memory ports carry every access of a cycle, the status ports hold every value. -/

namespace Sys2Proof.Machine

/-! ## The memory ports -/

/-- 16 bits hold every address of the memory. -/
theorem toNat_ofInt16_of_inMemory {n : Int} (h : inMemory n = true) : (BitVec.ofInt 16 n).toNat = n.toNat := by
  rw [inMemory_iff] at h
  simp only [BitVec.toNat_ofInt]; omega

/-- The same, as a number. -/
theorem natCast_toNat_ofInt16_of_inMemory {n : Int} (h : inMemory n = true) : ((BitVec.ofInt 16 n).toNat : Int) = n := by
  rw [toNat_ofInt16_of_inMemory h]
  exact Int.toNat_of_nonneg ((inMemory_iff n).mp h).1

/-- The data port writes exactly in the cycle, out of reset, whose step runs a `sw` in bounds (10_state.md R27). -/
theorem State.dataPort_write {s : State} {rst : Bool} {p : DataAccess} (h : s.dataPort rst = some p) (hw : p.we = true) :
    rst = false ∧ s.run = .running ∧ ∃ a b raw16, s.nextInstr = .ok (.sw a b raw16) ∧
      inMemory (s.effectiveAddress a raw16) = true ∧ p = ⟨BitVec.ofInt 16 (s.effectiveAddress a raw16), true, s.reg b⟩ := by
  obtain ⟨hr, a, b, raw16, hi, ⟨_, rfl⟩ | ⟨hn, rfl⟩⟩ := State.dataPort_eq_some.mp h
  · cases hw
  · obtain rfl : rst = false := by simpa using hw
    exact ⟨rfl, hr, a, b, raw16, hn, hi, rfl⟩

/-- Of the memory, an instruction changes at most the word that a `sw` in bounds stores (20_memory.md R33). -/
theorem Answers.memory {i : Instr} {s t : State} (h : Answers i s t) :
    SameMemory s t ∨ ∃ a b raw16, i = .sw a b raw16 ∧ inMemory (s.effectiveAddress a raw16) = true := by
  cases i with
  | sw a b raw16 =>
    obtain ⟨_, rfl⟩ | ⟨hi, _⟩ := h
    · exact .inl fun _ => rfl
    · exact .inr ⟨a, b, raw16, rfl, hi⟩
  | add a b dest | nor a b dest | lw a b raw16 => obtain ⟨_, rfl⟩ | ⟨_, _, rfl⟩ := h <;> exact .inl fun _ => rfl
  | beq a b raw16 | jalr a b | halt | noop => obtain rfl := h; exact .inl fun _ => rfl

/-- The next state of a `sw` in bounds. -/
theorem exec_sw_of_inMemory {s : State} {a : RegIdx} {raw16 : BitVec 16} (b : RegIdx)
    (h : inMemory (s.effectiveAddress a raw16) = true) :
    exec (.sw a b raw16) s =
      .next (State.commit { s with mem := s.mem.put (s.effectiveAddress a raw16).toNat (s.reg b) } s.npc) :=
  exec_of_answers (.inr ⟨h, rfl⟩)

/-- The memory after a store in bounds (20_memory.md R33). -/
theorem State.memWord_put_commit (s : State) (k n : Nat) (v : Word) (target : Int) :
    (State.commit { s with mem := s.mem.put k v } target).memWord n = if n = k then v else s.memWord n := by
  simp only [State.memWord, State.commit_mem, Memory.word?_put]; split <;> rfl

/-- In a cycle in which the data port does not write, memory stays as it is, whatever `rst` is. -/
theorem clockEdge_sameMemory {s t : State} {rst : Bool} (h : clockEdge rst s = .next t)
    (hw : ∀ p, s.dataPort rst = some p → p.we = false) : SameMemory s t := by
  cases rst with
  | true => cases h; exact fun _ => rfl
  | false =>
    obtain ⟨_, rfl⟩ | ⟨_, r, _, rfl⟩ | ⟨hr, i, hn, ha⟩ := step_cases h
    · exact fun _ => rfl
    · exact fun _ => rfl
    · rcases ha.memory with hsame | ⟨a, b, raw16, rfl, hi⟩
      · exact hsame
      · exact absurd (hw _ (State.dataPort_eq_some.mpr ⟨hr, a, b, raw16, hi, .inr ⟨hn, rfl⟩⟩)) (by simp)

/-- In a cycle in which the data port writes, the step is a committed `sw` that stores `d_wdata` at `d_addr`. -/
theorem step_of_dataPort_write {s : State} {rst : Bool} {p : DataAccess} (h : s.dataPort rst = some p) (hw : p.we = true) :
    rst = false ∧ ∃ a b raw16 t, s.nextInstr = .ok (.sw a b raw16) ∧ step s = .next t ∧ t.icount = s.icount + 1 ∧
      ∀ n, t.memWord n = if n = p.addr.toNat then p.wdata else s.memWord n := by
  obtain ⟨hrst, hr, a, b, raw16, hn, hi, rfl⟩ := State.dataPort_write h hw
  refine ⟨hrst, a, b, raw16, _, hn, (step_of_nextInstr hr hn).trans (exec_sw_of_inMemory b hi), rfl, fun n => ?_⟩
  rw [State.memWord_put_commit, toNat_ofInt16_of_inMemory hi]

/-- Settles O44: each port by its own lemma, and memory by whether the data port writes in the cycle. -/
theorem memoryPortsCarryEveryAccess : Obligations.MemoryPortsCarryEveryAccess := by
  refine ⟨fun s h0 h1 => ?_, fun s a b raw16 rst hr hn h0 h1 => ?_, fun s a b raw16 rst hr hn h0 h1 => ?_,
    fun s rst p hp hw => ?_, fun s t rst h n => ?_⟩
  · have hpc : inMemory s.pc = true := (inMemory_iff _).mpr ⟨h0, by omega⟩
    refine ⟨_, if_pos hpc, natCast_toNat_ofInt16_of_inMemory hpc, ?_⟩
    rw [toNat_ofInt16_of_inMemory hpc]
    exact if_pos hpc
  · have hi : inMemory (s.effectiveAddress a raw16) = true := (inMemory_iff _).mpr ⟨h0, by omega⟩
    refine ⟨_, _, State.dataPort_eq_some.mpr ⟨hr, a, b, raw16, hi, .inl ⟨hn, rfl⟩⟩, rfl,
      natCast_toNat_ofInt16_of_inMemory hi, (step_of_nextInstr hr hn).trans (exec_of_answers (.inr ⟨hi, rfl⟩)), ?_⟩
    simp [toNat_ofInt16_of_inMemory hi]
  · have hi : inMemory (s.effectiveAddress a raw16) = true := (inMemory_iff _).mpr ⟨h0, by omega⟩
    exact ⟨_, State.dataPort_eq_some.mpr ⟨hr, a, b, raw16, hi, .inr ⟨hn, rfl⟩⟩, rfl,
      natCast_toNat_ofInt16_of_inMemory hi, rfl⟩
  · obtain ⟨hrst, a, b, raw16, t, hn, ht, hcount, _⟩ := step_of_dataPort_write hp hw
    exact ⟨hrst, a, b, raw16, t, hn, ht, hcount⟩
  · by_cases hwrite : ∃ p, s.dataPort rst = some p ∧ p.we = true
    · obtain ⟨p, hp, hw⟩ := hwrite
      obtain ⟨rfl, _, _, _, u, _, hu, _, hmem⟩ := step_of_dataPort_write hp hw
      obtain rfl : u = t := Host.Outcome.next.inj (hu.symm.trans h)
      simp [hp, hw, hmem]
    · have hread : ∀ p, s.dataPort rst = some p → p.we = false := by simpa using hwrite
      rw [clockEdge_sameMemory h hread n]
      cases hp : s.dataPort rst with
      | none => rfl
      | some p => simp [hread p hp]

/-! ## The status ports -/

/-- 32 bits hold a signed 32-bit integer. -/
theorem toInt_ofInt32_of_fits {n : Int} (h : fitsSigned32 n) : (BitVec.ofInt 32 n).toInt = n := by
  rw [← trunc32_eq_ofInt, ← signed_eq_toInt, signed_trunc32 h]

/-- 33 bits, signed, hold the info of the record of every state with the invariant (90_conflicts.md C12). -/
theorem State.Inv.faultInfo_range {s : State} (h : s.Inv) : -2 ^ 32 ≤ s.faultInfo ∧ s.faultInfo < 2 ^ 32 := by
  obtain ⟨_, _, hfpc, hrec⟩ := h
  cases hr : s.run with
  | running | halted =>
    obtain ⟨_, _, hinfo⟩ := (State.recordOk_iff_clear (by simp [hr])).mp hrec
    simp [hinfo]
  | faulted =>
    simp only [State.recordOk, hr, State.recordMeaningful] at hrec
    obtain ⟨_, hm⟩ := hrec
    simp only [fitsSigned32] at hfpc
    cases hc : s.faultCause <;> simp only [hc] at hm <;> omega

/-- The cause is the one whose number its code holds (60_exceptions.md R141), so different causes have different codes. -/
theorem FaultCause.code_injective : Function.Injective FaultCause.code :=
  Function.LeftInverse.injective (g := fun v => FaultCause.ofNat v.toNat) fun c => by cases c <;> rfl

/-- The run state is the one whose number its code holds (10_state.md R22), so different run states have different codes. -/
theorem RunState.code_injective : Function.Injective RunState.code :=
  Function.LeftInverse.injective (g := fun v => RunState.ofNat v.toNat) fun r => by cases r <;> rfl

/-- Settles O45: each width by the range that the invariant gives, each code by the cases of its type. -/
theorem statusPortsHoldEveryValue : Obligations.StatusPortsHoldEveryValue := by
  refine ⟨fun s h => ?_, fun s => ?_, ⟨rfl, rfl, rfl⟩, @FaultCause.code_injective, @RunState.code_injective,
    fun s => ⟨?_, ?_, fun _ => rfl⟩, fun s width h hc => ?_⟩
  · have hrange := h.faultInfo_range
    obtain ⟨_, hpc, hfpc, hrec⟩ := h
    refine ⟨toInt_ofInt32_of_fits hpc, toInt_ofInt32_of_fits hfpc, ?_, fun hr => ?_⟩
    · rw [State.faultInfoPort, BitVec.toInt_ofInt, Int.bmod_eq_of_le] <;> omega
    · obtain ⟨hcause, _⟩ := (State.recordOk_iff_clear hr).mp hrec
      rw [State.faultCausePort, hcause]; rfl
  · cases hc : s.faultCause <;> simp [State.faultCausePort, hc, FaultCause.code]
  · exact decide_eq_true_iff
  · exact decide_eq_true_iff
  · rw [State.icountPort, BitVec.toNat_ofNat]
    exact Nat.mod_eq_of_lt (hc.trans_le (Nat.pow_le_pow_right (by decide) h))

end Sys2Proof.Machine
end

section
/-! Renaming the registers (10_state.md R13): every shared operation, and so every instruction, does the same under the new
names. -/

namespace Sys2Proof.Machine

section
variable {f : RegIdx → RegIdx} {s s' : State}

/-- States that are the same but for the names of their registers hold the same contents under the new names. -/
theorem Renamed.reg (h : Renamed f s s') (r : RegIdx) : s'.reg (f r) = s.reg r := h.2 r

/-- They have one incremented pc. -/
theorem Renamed.npc (h : Renamed f s s') : s'.npc = s.npc := by rw [h.1]; rfl

/-- They have one memory listing. -/
theorem Renamed.mem (h : Renamed f s s') : s'.mem = s.mem := by rw [h.1]

/-- They have one memory. -/
theorem Renamed.memWord (h : Renamed f s s') (n : Nat) : s'.memWord n = s.memWord n := by
  simp only [State.memWord, h.mem]

/-- An address through a renamed base is the address through the base. -/
theorem Renamed.effectiveAddress (h : Renamed f s s') (a : RegIdx) (raw16 : BitVec 16) :
    s'.effectiveAddress (f a) raw16 = s.effectiveAddress a raw16 := by
  simp only [State.effectiveAddress, h.reg]

/-- A commit, of one target, keeps states renamed. -/
theorem Renamed.commit (h : Renamed f s s') (target : Int) : Renamed f (s.commit target) (s'.commit target) := by
  refine ⟨?_, h.reg⟩
  rw [h.1]; rfl

/-- Halting keeps states renamed. -/
theorem Renamed.halt (h : Renamed f s s') : Renamed f s.halt s'.halt := by
  refine ⟨?_, h.reg⟩
  rw [h.1]; rfl

/-- A fault of one cause and info keeps states renamed. -/
theorem Renamed.takeFault (h : Renamed f s s') (cause : FaultCause) (info : Int) :
    Renamed f (s.takeFault cause info) (s'.takeFault cause info) := by
  refine ⟨?_, h.reg⟩
  rw [h.1]; rfl

/-- A store of one word at one address keeps states renamed. -/
theorem Renamed.put (h : Renamed f s s') (n : Nat) (v : Word) :
    Renamed f { s with mem := s.mem.put n v } { s' with mem := s'.mem.put n v } := by
  refine ⟨?_, h.reg⟩
  rw [h.1]

/-- A write under the new name; an injective renaming writes no other register. -/
theorem Renamed.writeReg (hf : Function.Injective f) (h : Renamed f s s') (r : RegIdx) (v : Word) :
    Renamed f (s.writeReg r v) (s'.writeReg (f r) v) := by
  refine ⟨?_, fun q => by simp only [State.reg_writeReg, hf.eq_iff, h.reg]⟩
  rw [h.1]; rfl

end

/-- A well-formed R-format instruction names the register of the number in its destination field. -/
theorem destReg?_of_destOk {dest : BitVec 16} (h : destOk dest = true) : destReg? dest = some (Fin.ofNat 8 dest.toNat) :=
  if_pos (by simpa [destOk] using h)

/-- The destination field that holds a register's number names that register. -/
theorem destReg?_ofNat (d : RegIdx) : destReg? (BitVec.ofNat 16 d.val) = some d :=
  destReg?_of_toNat_eq (by have := d.isLt; simp only [BitVec.toNat_ofNat]; omega)

/-- Renamed states answer a renamed well-formed instruction with renamed next states. -/
theorem exec_renameRegs {f : RegIdx → RegIdx} {s s' t : State} {i : Instr} (hf : Function.Injective f)
    (hwf : i.wellFormed = true) (h : Renamed f s s') (hexec : exec i s = .next t) :
    ∃ t', exec (renameRegs f i) s' = .next t' ∧ Renamed f t t' := by
  suffices hans : ∃ t', Answers (renameRegs f i) s' t' ∧ Renamed f t t' by
    obtain ⟨t', ha, ht⟩ := hans
    exact ⟨t', exec_of_answers ha, ht⟩
  have ha := exec_answers hexec
  cases i with
  | add a b dest | nor a b dest =>
    have hd := destReg?_of_destOk hwf
    obtain ⟨hnone, _⟩ | ⟨d, hsome, rfl⟩ := ha
    · simp [hd] at hnone
    · obtain rfl := Option.some.inj (hd.symm.trans hsome)
      refine ⟨_, .inr ⟨_, destReg?_ofNat _, rfl⟩, ?_⟩
      rw [h.reg, h.reg, h.npc]
      exact (h.writeReg hf _ _).commit _
  | lw a b raw16 =>
    have hea := h.effectiveAddress a raw16
    obtain ⟨hi, rfl⟩ | ⟨hi, rfl⟩ := ha
    · exact ⟨_, .inl ⟨hea ▸ hi, rfl⟩, hea ▸ h.takeFault _ _⟩
    · refine ⟨_, .inr ⟨hea ▸ hi, rfl⟩, ?_⟩
      rw [hea, h.memWord, h.npc]
      exact (h.writeReg hf _ _).commit _
  | sw a b raw16 =>
    have hea := h.effectiveAddress a raw16
    obtain ⟨hi, rfl⟩ | ⟨hi, rfl⟩ := ha
    · exact ⟨_, .inl ⟨hea ▸ hi, rfl⟩, hea ▸ h.takeFault _ _⟩
    · refine ⟨_, .inr ⟨hea ▸ hi, rfl⟩, ?_⟩
      rw [hea, h.reg, h.npc]
      exact (h.put _ _).commit _
  | beq a b raw16 =>
    obtain rfl := ha
    refine ⟨_, rfl, ?_⟩
    simp only [h.reg, h.npc, State.branchTarget]
    exact h.commit _
  | jalr a b =>
    obtain rfl := ha
    have hlink : Renamed f (s.link b) (s'.link (f b)) := by
      rw [State.link, State.link, h.npc]
      exact h.writeReg hf _ _
    refine ⟨_, rfl, ?_⟩
    rw [hlink.reg]
    exact hlink.commit _
  | halt =>
    obtain rfl := ha
    refine ⟨_, rfl, ?_⟩
    rw [h.npc]
    exact h.halt.commit _
  | noop =>
    obtain rfl := ha
    refine ⟨_, rfl, ?_⟩
    rw [h.npc]
    exact h.commit _

/-- Settles O50: the renaming of every instruction, then register 0 at reset, in the instructions and in the encoder. -/
theorem noRegisterIsSpecial : Obligations.NoRegisterIsSpecial := by
  refine ⟨fun _ _ _ _ _ => exec_renameRegs, State.reg_reset 0, fun s a => exec_jalr_link s a 0, fun s a b hr => ⟨?_, ?_⟩,
    fun s t i => onlyTheNamedDestinationChanges s t i 0, fun op a b off h => ⟨_, encoderBlock_rFormat_dest_zero h a b off⟩,
    fun a off h0 h1 => encoderBlock_lw_ok a 0 ⟨h0, h1⟩, fun a off => encoderBlock_jalr_ok a 0 off⟩
  · exact ⟨_, exec_of_answers (.inr ⟨0, rfl, rfl⟩), hr⟩
  · exact ⟨_, exec_of_answers (.inr ⟨0, rfl, rfl⟩), hr⟩

end Sys2Proof.Machine
end

section
/-! The table of register accesses (10_state.md R14): the column "writes", the column "reads" from above and from below, and each
row's function. -/

namespace Sys2Proof.Machine

/-! ## Writes -/

/-- Writing back what a register holds changes nothing. -/
theorem State.writeReg_self (s : State) (r : RegIdx) : s.writeReg r (s.reg r) = s := by
  simp [State.writeReg, State.reg]

/-- A write before another one is lost if they name one register, and otherwise may come after it. -/
theorem State.writeReg_writeReg_eq_ite (s : State) (r d : RegIdx) (v u : Word) :
    (s.writeReg r v).writeReg d u = if d = r then s.writeReg d u else (s.writeReg d u).writeReg r v := by
  split
  · subst_vars; exact s.writeReg_writeReg _ v u
  · exact s.writeReg_comm (Ne.symm ‹_›) v u

/-- At most one register changes in a step: the one its instruction names as written. -/
theorem step_sameRegsBut {s t : State} (h : step s = .next t) : ∃ d, SameRegsBut d s t := by
  obtain ⟨_, rfl⟩ | ⟨_, r, _, rfl⟩ | ⟨_, i, _, ha⟩ := step_cases h
  · exact ⟨0, fun _ _ => rfl⟩
  · exact ⟨0, fun _ _ => rfl⟩
  · exact ⟨(writtenReg i).getD 0, fun r hr => ha.reg_eq fun hw => hr (by rw [hw]; rfl)⟩

/-! ## Reads, from above -/

/-- An address does not depend on a register other than its base. -/
theorem State.effectiveAddress_writeReg (s : State) {a r : RegIdx} (h : a ≠ r) (v : Word) (raw16 : BitVec 16) :
    (s.writeReg r v).effectiveAddress a raw16 = s.effectiveAddress a raw16 := by
  simp [State.effectiveAddress, h]

/-- A fault leaves a register write beside it. -/
theorem State.takeFault_writeReg (s : State) (r : RegIdx) (v : Word) (cause : FaultCause) (info : Int) :
    (s.writeReg r v).takeFault cause info = (s.takeFault cause info).writeReg r v := rfl

/-- A commit leaves a register write beside it. -/
theorem State.commit_writeReg (s : State) (r : RegIdx) (v : Word) (target : Int) :
    (s.writeReg r v).commit target = (s.commit target).writeReg r v := rfl

/-- A commit of another content of `r`: it stays beside the instruction's own write, or is lost under it. -/
theorem State.commit_writeReg_writeReg (s : State) (r d : RegIdx) (v u : Word) (target : Int) :
    ((s.writeReg r v).writeReg d u).commit target =
      if d = r then (s.writeReg d u).commit target else ((s.writeReg d u).commit target).writeReg r v := by
  rw [State.writeReg_writeReg_eq_ite]; split <;> rfl

/-- A register that a Running core's instruction does not read only stands beside what the instruction does, and a commit that
writes it leaves nothing of it. -/
theorem exec_writeReg_of_not_mem_readRegs {s t : State} {i : Instr} {r : RegIdx} (hr : s.run = .running)
    (hread : r ∉ readRegs i) (v : Word) (h : exec i s = .next t) :
    exec i (s.writeReg r v) = .next (if t.run ≠ .faulted ∧ writtenReg i = some r then t else t.writeReg r v) := by
  apply exec_of_answers
  have ha := exec_answers h
  cases i with
  | add a b dest | nor a b dest =>
    obtain ⟨hra, hrb⟩ : a ≠ r ∧ b ≠ r := by simpa [readRegs, eq_comm] using hread
    obtain ⟨hd, rfl⟩ | ⟨d, hd, rfl⟩ := ha
    · exact .inl ⟨hd, by simp [State.takeFault_writeReg]⟩
    · refine .inr ⟨d, hd, ?_⟩
      simp [State.commit_writeReg_writeReg, writtenReg_of_destReg? hd, hr, hra, hrb, State.npc]
  | lw a b raw16 =>
    have hra : a ≠ r := by simpa [readRegs, eq_comm] using hread
    have hea := s.effectiveAddress_writeReg hra v raw16
    obtain ⟨hi, rfl⟩ | ⟨hi, rfl⟩ := ha
    · exact .inl ⟨hea ▸ hi, by simp [hea, State.takeFault_writeReg]⟩
    · refine .inr ⟨hea ▸ hi, ?_⟩
      simp [State.commit_writeReg_writeReg, writtenReg, hr, hea, State.npc]
  | sw a b raw16 =>
    obtain ⟨hra, hrb⟩ : a ≠ r ∧ b ≠ r := by simpa [readRegs, eq_comm] using hread
    have hea := s.effectiveAddress_writeReg hra v raw16
    obtain ⟨hi, rfl⟩ | ⟨hi, rfl⟩ := ha
    · exact .inl ⟨hea ▸ hi, by simp [hea, State.takeFault_writeReg]⟩
    · exact .inr ⟨hea ▸ hi, by simp [writtenReg, hea, hrb]; rfl⟩
  | beq a b raw16 =>
    obtain ⟨hra, hrb⟩ : a ≠ r ∧ b ≠ r := by simpa [readRegs, eq_comm] using hread
    obtain rfl := ha
    simp [Answers, State.commit_writeReg, State.branchTarget, State.npc, writtenReg, hra, hrb]
  | jalr a b =>
    obtain rfl := ha
    have htarget : ((s.writeReg r v).link b).reg a = (s.link b).reg a := by
      by_cases hab : a = b
      · simp [State.link, State.npc, hab]
      · have hra : a ≠ r := by simpa [readRegs, hab, eq_comm] using hread
        simp [State.link, State.npc, hra]
    simp only [Answers, htarget]
    simp [State.link, State.commit_writeReg_writeReg, writtenReg, hr, State.npc]
  | halt | noop => obtain rfl := ha; simp [Answers, writtenReg]; rfl

/-! ## Reads, from below -/

/-- Some committed step of the instruction depends on the register: with another content of it, the next state differs by more
than that content. -/
def Influences (i : Instr) (r : RegIdx) : Prop :=
  ∃ (s t t' : State) (v : Word), s.run = .running ∧ exec i s = .next t ∧ exec i (s.writeReg r v) = .next t' ∧
    t.run ≠ .faulted ∧ t' ≠ if writtenReg i = some r then t else t.writeReg r v

/-- To influence, it is enough that two next states differ in something that is not the content of the register, unless the
instruction writes it. -/
theorem influences_of_observable {α : Type} (observe : State → α) {i : Instr} {r : RegIdx} {s t t' : State} {v : Word}
    (hr : s.run = .running) (ht : Answers i s t) (ht' : Answers i (s.writeReg r v) t') (hrun : t.run ≠ .faulted)
    (hv : writtenReg i ≠ some r → observe (t.writeReg r v) = observe t) (hne : observe t' ≠ observe t) :
    Influences i r := by
  refine ⟨s, t, t', v, hr, exec_of_answers ht, exec_of_answers ht', hrun, fun heq => hne ?_⟩
  rw [heq]
  split
  · rfl
  · exact hv ‹_›

/-- It is enough that the written register is left with another content. -/
theorem influences_of_written {i : Instr} {r d : RegIdx} {s t t' : State} {v : Word} (hw : writtenReg i = some d)
    (hr : s.run = .running) (ht : Answers i s t) (ht' : Answers i (s.writeReg r v) t') (hrun : t.run ≠ .faulted)
    (hne : t'.reg d ≠ t.reg d) : Influences i r := by
  refine influences_of_observable (·.reg d) hr ht ht' hrun (fun hwr => ?_) hne
  have hdr : d ≠ r := fun e => hwr (e ▸ hw)
  simp [hdr]

/-- It is enough that the other content makes the instruction fault. -/
theorem influences_of_fault {i : Instr} {r : RegIdx} {s t : State} {v : Word} {cause : FaultCause} {info : Int}
    (hr : s.run = .running) (ht : Answers i s t) (hrun : t.run ≠ .faulted)
    (ht' : Answers i (s.writeReg r v) ((s.writeReg r v).takeFault cause info)) : Influences i r :=
  influences_of_observable (·.run) hr ht ht' hrun (fun _ => rfl) hrun.symm

/-- `add` from registers that are all 0: a 1 in an operand makes the sum 1 or 2. -/
theorem influences_add {a b r : RegIdx} {dest : BitVec 16} {d : RegIdx} (hd : destReg? dest = some d)
    (hr : r = a ∨ r = b) : Influences (.add a b dest) r := by
  refine influences_of_written (s := State.reset) (v := 1) (writtenReg_of_destReg? hd a b).1 rfl (.inr ⟨d, hd, rfl⟩)
    (.inr ⟨d, hd, rfl⟩) nofun ?_
  rcases hr with rfl | rfl
  · by_cases hb : b = r <;> simp [aluAdd_eq_add, hb]
  · by_cases ha : a = r <;> simp [aluAdd_eq_add, ha]

/-- `nor` from registers that are all 0: a 1 in an operand clears bit 0. -/
theorem influences_nor {a b r : RegIdx} {dest : BitVec 16} {d : RegIdx} (hd : destReg? dest = some d)
    (hr : r = a ∨ r = b) : Influences (.nor a b dest) r := by
  refine influences_of_written (s := State.reset) (v := 1) (writtenReg_of_destReg? hd a b).2 rfl (.inr ⟨d, hd, rfl⟩)
    (.inr ⟨d, hd, rfl⟩) nofun ?_
  rcases hr with rfl | rfl
  · by_cases hb : b = r <;> simp [aluNor, hb]
  · by_cases ha : a = r <;> simp [aluNor, ha]

/-- The base for which the address through the offset is `addr`. -/
def baseFor (addr : Int) (raw16 : BitVec 16) : Word := trunc32 (addr - sext32 raw16)

/-- It reaches every address of the memory, and -1. -/
theorem State.effectiveAddress_baseFor (s : State) (a : RegIdx) (raw16 : BitVec 16) {addr : Int}
    (h : -1 ≤ addr ∧ addr < 65536) : (s.writeReg a (baseFor addr raw16)).effectiveAddress a raw16 = addr := by
  have := sext32_range raw16
  have hfits : fitsSigned32 (addr - sext32 raw16) := by simp only [fitsSigned32]; omega
  simp [State.effectiveAddress, baseFor, signed_trunc32 hfits]

/-- `lw` and `sw` at address 0: with the base one lower, they fault. -/
theorem influences_base (a b : RegIdx) (raw16 : BitVec 16) :
    Influences (.lw a b raw16) a ∧ Influences (.sw a b raw16) a := by
  have h0 := State.reset.effectiveAddress_baseFor a raw16 (addr := 0) (by decide)
  have h1 := (State.reset.writeReg a (baseFor 0 raw16)).effectiveAddress_baseFor a raw16 (addr := -1) (by decide)
  exact ⟨influences_of_fault rfl (.inr ⟨by rw [h0]; rfl, rfl⟩) (by simp) (.inl ⟨by rw [h1]; rfl, rfl⟩),
    influences_of_fault rfl (.inr ⟨by rw [h0]; rfl, rfl⟩) (by simp) (.inl ⟨by rw [h1]; rfl, rfl⟩)⟩

/-- `sw` to address 0: it stores there what the register holds. -/
theorem influences_sw_data {a b : RegIdx} (hab : a ≠ b) (raw16 : BitVec 16) : Influences (.sw a b raw16) b := by
  have h0 := State.reset.effectiveAddress_baseFor a raw16 (addr := 0) (by decide)
  have h1 := ((State.reset.writeReg a (baseFor 0 raw16)).effectiveAddress_writeReg hab 1 raw16).trans h0
  refine influences_of_observable (·.memWord 0) rfl (.inr ⟨by rw [h0]; rfl, rfl⟩) (.inr ⟨by rw [h1]; rfl, rfl⟩)
    (by simp) (fun _ => rfl) ?_
  simp only [State.memWord_put_commit, h0, h1]
  simp [hab.symm]

/-- `beq` from registers that are all 0 is taken; a 1 in either of two registers makes it fall through. -/
theorem influences_beq {a b r : RegIdx} {raw16 : BitVec 16} (hab : a ≠ b) (hraw : raw16 ≠ 0) (hr : r = a ∨ r = b) :
    Influences (.beq a b raw16) r := by
  have hoff : sext32 raw16 ≠ 0 := fun h => hraw (BitVec.eq_of_toInt_eq (by rw [← sext32_eq_toInt, h]; rfl))
  refine influences_of_observable (s := State.reset) (v := 1) (·.pc) rfl rfl rfl nofun (fun _ => rfl) ?_
  rcases hr with rfl | rfl <;> simp [State.branchTarget, State.npc, hab, hab.symm, hoff]

/-- `jalr` through another register than the one it links goes where that register says. -/
theorem influences_jalr {a b : RegIdx} (hab : a ≠ b) : Influences (.jalr a b) a := by
  refine influences_of_observable (s := State.reset) (v := 1) (·.pc) rfl rfl rfl nofun (fun _ => rfl) ?_
  simp [State.link, hab, signed]

/-- Every register that the table names as read influences some committed step, but for a `beq` whose two outcomes are one. -/
theorem influences_of_mem_readRegs {i : Instr} {r : RegIdx} (hwf : i.wellFormed = true)
    (hbeq : ∀ a b raw16, i = .beq a b raw16 → a ≠ b ∧ raw16 ≠ 0) (hread : r ∈ readRegs i) : Influences i r := by
  cases i with
  | add a b dest => exact influences_add (destReg?_of_destOk hwf) (by simpa [readRegs] using hread)
  | nor a b dest => exact influences_nor (destReg?_of_destOk hwf) (by simpa [readRegs] using hread)
  | lw a b raw16 =>
    obtain rfl : r = a := by simpa [readRegs] using hread
    exact (influences_base r b raw16).1
  | sw a b raw16 =>
    obtain rfl | ⟨hra, rfl⟩ : r = a ∨ r ≠ a ∧ r = b := by
      have : r = a ∨ r = b := by simpa [readRegs] using hread
      tauto
    · exact (influences_base r b raw16).2
    · exact influences_sw_data hra.symm raw16
  | beq a b raw16 =>
    obtain ⟨hab, hraw⟩ := hbeq a b raw16 rfl
    exact influences_beq hab hraw (by simpa [readRegs] using hread)
  | jalr a b =>
    obtain ⟨hab, rfl⟩ : a ≠ b ∧ r = a := by
      by_cases hab : a = b
      · simp [readRegs, hab] at hread
      · exact ⟨hab, by simpa [readRegs, hab] using hread⟩
    exact influences_jalr hab
  | halt | noop => simp [readRegs] at hread

/-! ## Row by row -/

/-- Settles O48: the columns by the lemmas above, and each row by the instruction's answer. -/
theorem registersAreAccessedAsTheTableSays : Obligations.RegistersAreAccessedAsTheTableSays := by
  refine ⟨fun s r r' v => s.reg_writeReg r v r', State.reg_reset, fun s t i r h hw => (exec_answers h).reg_eq hw,
    fun s t => step_sameRegsBut, fun s t t' i r v hr hread h h' => ?_, fun i r => influences_of_mem_readRegs,
    fun s a b d dest hd => ⟨?_, ?_⟩, fun s a b raw16 ea hea h0 h1 => ?_, fun s a b raw16 => ⟨?_, ?_, ?_, ?_⟩,
    fun s r => rfl⟩
  · obtain rfl := Host.Outcome.next.inj (h'.symm.trans (exec_writeReg_of_not_mem_readRegs hr hread v h))
    refine ⟨?_, fun hrun => by simp [hrun]⟩
    split
    · exact ⟨t.reg r, (t.writeReg_self r).symm⟩
    · exact ⟨v, rfl⟩
  · refine ⟨_, exec_of_answers (.inr ⟨d, destReg?_of_toNat_eq hd, rfl⟩), ?_, rfl⟩
    simp [aluAdd_eq_add]
  · refine ⟨_, exec_of_answers (.inr ⟨d, destReg?_of_toNat_eq hd, rfl⟩), ?_, rfl⟩
    simp [aluNor]
  · obtain rfl : ea = s.effectiveAddress a raw16 := by rw [hea, State.effectiveAddress, signed_eq_toInt, sext32_eq_toInt]
    have hi : inMemory (s.effectiveAddress a raw16) = true := (inMemory_iff _).mpr ⟨h0, by omega⟩
    refine ⟨⟨_, exec_of_answers (.inr ⟨hi, rfl⟩), by simp, rfl⟩, _, exec_sw_of_inMemory b hi, ?_, fun _ => rfl, rfl⟩
    rw [State.memWord_put_commit, if_pos rfl]
  · refine ⟨_, exec_of_answers rfl, fun _ => rfl, ?_⟩
    rw [State.commit_pc, State.branchTarget, sext32_eq_toInt, State.npc]
  · refine ⟨_, exec_of_answers rfl, ?_, ?_⟩
    · simp [State.link, trunc32_eq_ofInt, State.npc]
    · simp [State.link, trunc32_eq_ofInt, State.npc, signed_eq_toInt]
  · exact ⟨_, exec_of_answers rfl, fun _ => rfl⟩
  · exact ⟨_, exec_of_answers rfl, fun _ => rfl⟩

end Sys2Proof.Machine
end

section
/-! Memory words change by stores only, and a store is what the next load or fetch of its address returns
(20_memory.md R32, R33, R38, R42, R44). -/

namespace Sys2Proof.Machine

/-! ## `MemWrite` and `sw` -/

/-- `MemWrite` answers in bounds only, with the word at the address replaced (20_memory.md R33). -/
theorem State.memWrite_eq_some_iff {s t : State} {addr : Int} {v : Word} :
    s.memWrite addr v = some t ↔ inMemory addr = true ∧ { s with mem := s.mem.put addr.toNat v } = t := by
  simp only [State.memWrite, Option.ite_none_right_eq_some, Option.some.injEq]

/-- `MemWrite` refuses exactly the addresses out of bounds (20_memory.md R33). -/
theorem State.memWrite_eq_none_iff {s : State} {addr : Int} {v : Word} :
    s.memWrite addr v = none ↔ inMemory addr = false := by
  simp [State.memWrite]

/-- Settles O38: `MemWrite` by its two verdicts, `sw` by its answer for each of them, and the frame of memory over the
instructions. -/
theorem memoryWordsChangeOnlyByStores : Obligations.MemoryWordsChangeOnlyByStores := by
  refine ⟨fun s addr v => ?_, fun s a b raw16 hnone => ?_, fun s u a b raw16 hsome => ?_, fun s t i h hsw => ?_⟩
  · rcases s.memWrite_cases addr v with ⟨hi, t, ht, -, hmem, -⟩ | ⟨hi, hnone⟩
    · rw [inMemory_iff] at hi
      rw [if_pos (by omega)]
      exact ⟨t, ht, by simp [hmem], fun n hn => by simp [hmem, hn]⟩
    · rw [inMemory_false_iff] at hi
      rw [if_neg (by omega)]
      exact hnone
  · exact ⟨_, exec_of_answers (.inl ⟨State.memWrite_eq_none_iff.mp hnone, rfl⟩), fun _ => rfl,
      s.takeFault_faultTaken _ _⟩
  · obtain ⟨hi, rfl⟩ := State.memWrite_eq_some_iff.mp hsome
    exact ⟨_, exec_sw_of_inMemory b hi, fun _ => rfl, rfl⟩
  · rcases (exec_answers h).memory with hsame | ⟨a, b, raw16, rfl, -⟩
    · exact hsame
    · exact absurd rfl (hsw a b raw16)

/-! ## A load after a store -/

/-- The next state of a `lw` in bounds. -/
theorem exec_lw_of_inMemory {s : State} {a : RegIdx} {raw16 : BitVec 16} (b : RegIdx)
    (h : inMemory (s.effectiveAddress a raw16) = true) :
    exec (.lw a b raw16) s = .next ((s.writeReg b (s.memWord (s.effectiveAddress a raw16).toNat)).commit s.npc) :=
  exec_of_answers (.inr ⟨h, rfl⟩)

/-- Settles O40: the `sw` changes no register, so the `lw` has the same effective address and reads the word stored there. -/
theorem loadAfterStoreReadsTheStoredWord : Obligations.LoadAfterStoreReadsTheStoredWord := by
  intro s a b c raw16 h0 h1
  have hi : inMemory (s.effectiveAddress a raw16) = true := (inMemory_iff _).mpr ⟨h0, by omega⟩
  refine ⟨_, _, exec_sw_of_inMemory b hi, exec_lw_of_inMemory c hi, ?_, ?_, rfl⟩
  · rw [State.reg_commit, State.reg_writeReg, if_pos rfl, State.memWord_put_commit]
    exact if_pos rfl
  · simp only [State.commit_pc, State.npc]; omega

/-! ## A fetch after a store -/

/-- A core that stands inside the memory fetches the word at its pc (40_step_cycle.md R82). -/
theorem State.fetch_at (s : State) {pc : Int} (h : inMemory pc = true) :
    State.fetch { s with pc := pc } = .ok (s.memWord pc.toNat) := if_pos h

/-- The step that runs a `sw` in bounds commits, and the fetch of the address it stored to returns the stored word, even
when that is the address of the `sw` itself (20_memory.md R42, R44). -/
theorem step_sw_fetch {s : State} {a b : RegIdx} {raw16 : BitVec 16} (hr : s.run = .running)
    (hn : s.nextInstr = .ok (.sw a b raw16)) (hi : inMemory (s.effectiveAddress a raw16) = true) :
    ∃ t, step s = .next t ∧ t.pc = s.pc + 1 ∧ t.icount = s.icount + 1 ∧
      State.fetch { t with pc := s.effectiveAddress a raw16 } = .ok (s.reg b) := by
  refine ⟨_, (step_of_nextInstr hr hn).trans (exec_sw_of_inMemory b hi), rfl, rfl, ?_⟩
  rw [State.fetch_at _ hi, State.memWord_put_commit, if_pos rfl]

/-- Settles O41: both addresses are in bounds, the own one because the `sw` was fetched from it; and a core that has
stepped to the address of the store fetches from it. -/
theorem storeIsSeenByTheNextFetch : Obligations.StoreIsSeenByTheNextFetch := by
  intro s a b raw16 hr hn
  obtain ⟨hpc, -⟩ := State.nextInstr_ok hn
  refine ⟨fun hea hle => ?_, fun hea => ?_⟩
  · have hi : inMemory (s.effectiveAddress a raw16) = true := by rw [inMemory_iff] at *; omega
    obtain ⟨t, ht, htpc, -, hfetch⟩ := step_sw_fetch hr hn hi
    rw [hea, ← htpc] at hfetch
    exact ⟨t, ht, htpc, hfetch⟩
  · rw [← hea] at hpc ⊢
    obtain ⟨t, ht, htpc, hcount, hfetch⟩ := step_sw_fetch hr hn hpc
    exact ⟨t, ht, hea ▸ htpc, hcount, hfetch⟩

end Sys2Proof.Machine
end

section
/-! The machine-code file (20_memory.md R45, R46): the word of a line, the image of a file, and its launch. -/

namespace Sys2Proof.Machine

/-! ## The word of a line -/

/-- A line in the signed 32-bit range gives its `trunc_32` (20_memory.md R46). -/
theorem lineToWord_of_fits {n : Int} (h : fitsSigned32 n) : lineToWord n = some (trunc32 n) := if_pos h

/-- A line outside the range is refused (20_memory.md R46, decision D16). -/
theorem lineToWord_of_not_fits {n : Int} (h : ¬ fitsSigned32 n) : lineToWord n = none := if_neg h

/-- The word of a line in range reads as that line. -/
theorem toInt_trunc32 {n : Int} (h : fitsSigned32 n) : (trunc32 n).toInt = n := by
  rw [← signed_eq_toInt, signed_trunc32 h]

/-- Settles O4: on either side of the range check. -/
theorem imageLineBecomesItsTwosComplementWord : Obligations.ImageLineBecomesItsTwosComplementWord := by
  intro n
  split
  next h => exact ⟨trunc32 n, lineToWord_of_fits h, toInt_trunc32 h, trunc32_toNat n⟩
  next h => exact lineToWord_of_not_fits h

/-! ## The image of a file -/

/-- A file whose every line is in range gives the words of its lines. -/
theorem linesToImage_of_fits {lines : List Int} (h : ∀ n ∈ lines, fitsSigned32 n) :
    linesToImage lines = some (lines.map trunc32) := by
  rw [linesToImage_eq_some, List.map_map]
  exact List.map_congr_left fun n hn => lineToWord_of_fits (h n hn)

/-- An image has one word for each line of its file. -/
theorem length_of_linesToImage {lines : List Int} {image : List Word} (h : linesToImage lines = some image) :
    image.length = lines.length := by
  simpa using (congrArg List.length (linesToImage_eq_some.mp h)).symm

/-! ## The launch -/

/-- An image that fits is written from address 0 upward into the reset core (20_memory.md R45). -/
theorem State.launch_of_length_le (s : State) {image : List Word} (h : image.length ≤ 65536) :
    s.launch image = some { s.resetCore with mem := s.mem.putAll 0 image } := if_pos h

/-- An image that does not fit is refused (20_memory.md R45, decision D15). -/
theorem State.launch_of_length_gt (s : State) {image : List Word} (h : 65536 < image.length) :
    s.launch image = none := if_neg (Nat.not_le.mpr h)

/-- A word after loading is that of the image, or above the image what it was (20_memory.md R45). -/
theorem State.memWord_putAll_zero {s t : State} {image : List Word} (h : t.mem = s.mem.putAll 0 image) (n : Nat) :
    t.memWord n = (image[n]?).getD (s.memWord n) := by
  simp only [State.memWord, h, Memory.word?_putAll, Nat.zero_le, true_and, Nat.zero_add, Nat.sub_zero]
  by_cases hn : n < image.length
  · simp [hn]
  · simp [hn]

/-- A file with a refused line, or with more lines than the memory has words, is refused (20_memory.md R45, R46). -/
theorem State.launchFile_eq_none (s : State) {lines : List Int}
    (h : (∃ n ∈ lines, ¬ fitsSigned32 n) ∨ 65536 < lines.length) : s.launchFile lines = none := by
  rw [State.launchFile]
  cases himage : linesToImage lines with
  | none => rfl
  | some image =>
    obtain ⟨n, hn, hbad⟩ | hlong := h
    · rw [linesToImage_eq_none hn (lineToWord_of_not_fits hbad)] at himage
      cases himage
    · exact s.launch_of_length_gt (by rwa [length_of_linesToImage himage])

/-- A file that is not refused is launched as the words of its lines. -/
theorem State.launchFile_of_fits (s : State) {lines : List Int} (h : ∀ n ∈ lines, fitsSigned32 n)
    (hlen : lines.length ≤ 65536) :
    s.launchFile lines = some { s.resetCore with mem := s.mem.putAll 0 (lines.map trunc32) } := by
  rw [State.launchFile, linesToImage_of_fits h]
  exact s.launch_of_length_le (by rwa [List.length_map])

/-- Settles O46: a good file by the memory of its launched image over the reset core, a bad one by its refusal. -/
theorem launchFilePlacesLineByLine : Obligations.LaunchFilePlacesLineByLine := by
  refine fun s lines => ⟨fun hfit hlen => ?_, fun hbad => s.launchFile_eq_none (hbad.imp_left ?_)⟩
  · refine ⟨_, s.launchFile_of_fits hfit hlen, fun i hi => ?_, fun n hn => ?_, rfl, s.reg_resetCore, rfl, rfl, rfl, rfl, rfl⟩
    · have hword : (lines.map trunc32)[i]?.getD (s.memWord i) = trunc32 lines[i] := by simp [hi]
      rw [State.memWord_putAll_zero (s := s) rfl, hword]
      exact ⟨toInt_trunc32 (hfit _ (List.getElem_mem hi)), trunc32_toNat _⟩
    · rw [State.memWord_putAll_zero (s := s) rfl]
      simp [hn]
  · rintro ⟨n, hn, hout⟩
    exact ⟨n, hn, fun ⟨hl, hu⟩ => by omega⟩

end Sys2Proof.Machine
end

section
/-! The decoder's verdict by the opcode, and decode after encode (30_encoding.md R63, R66, R67). -/

namespace Sys2Proof

/-! ## The decoder -/

/-- The instruction that an opcode selects, with the operand fields that its format reads (30_encoding.md R56). -/
def Instr.ofFields (op : Fin 8) (a b : RegIdx) (raw16 : BitVec 16) : Instr :=
  match op with
  | 0 => .add a b raw16
  | 1 => .nor a b raw16
  | 2 => .lw a b raw16
  | 3 => .sw a b raw16
  | 4 => .beq a b raw16
  | 5 => .jalr a b
  | 6 => .halt
  | 7 => .noop

/-- A word with bits 31:25 clear is dispatched to the instruction of its opcode (40_step_cycle.md R84). -/
theorem dispatch_of_opcode {w : Word} (h : field w 31 25 = 0) {op : Fin 8} (hop : field w 24 22 = op.val) :
    dispatch w = some (.ofFields op (regAOf w) (regBOf w) (raw16Of w)) := by
  simp only [dispatch, h, hop]
  fin_cases op <;> rfl

/-- A packed word is dispatched to the instruction of the fields it was packed from. -/
theorem dispatch_packFields (op : Fin 8) (a b : RegIdx) (raw16 : BitVec 16) :
    dispatch (packFields op.val a.val b.val raw16.toNat) = some (.ofFields op a b raw16) := by
  obtain ⟨hhigh, hop, ha, hb, hraw⟩ := packFields_fields op.isLt a.isLt b.isLt raw16.isLt
  rw [dispatch_of_opcode hhigh hop, Fin.ext ((regAOf_val _).trans ha), Fin.ext ((regBOf_val _).trans hb),
    BitVec.eq_of_toNat_eq ((raw16Of_toNat _).trans hraw)]

/-- The verdict on a dispatched word is its register check (30_encoding.md R63). -/
theorem decode_of_dispatch {w : Word} {i : Instr} (h : dispatch w = some i) :
    decode w = if i.wellFormed then .ok i else .error .invalidRegister := by
  simp only [decode, h]

/-- The verdict on a word with bits 31:25 clear, by its opcode. -/
theorem decode_of_opcode {w : Word} (h : field w 31 25 = 0) {op : Fin 8}
    (hop : w.extractLsb 24 22 = BitVec.ofNat 3 op.val) {i : Instr}
    (hi : Instr.ofFields op (regAOf w) (regBOf w) (raw16Of w) = i) :
    decode w = if i.wellFormed then .ok i else .error .invalidRegister :=
  hi ▸ decode_of_dispatch (dispatch_of_opcode h ((extractLsb_eq_iff w 24 22 op.val op.isLt).mp hop))

/-- Settles O10: the words that dispatch refuses, then each opcode by the instruction it selects. -/
theorem decodeVerdictOnEveryWord : Obligations.DecodeVerdictOnEveryWord := by
  intro w a b raw16 ha hb hraw
  obtain rfl : regAOf w = a := Fin.ext (by rw [regAOf_val, field_eq_extractLsb, ha])
  obtain rfl : regBOf w = b := Fin.ext (by rw [regBOf_val, field_eq_extractLsb, hb])
  obtain rfl : raw16Of w = raw16 := BitVec.eq_of_toNat_eq (by rw [raw16Of_toNat, field_eq_extractLsb, hraw])
  have hhigh : w.extractLsb 31 25 = 0 ↔ field w 31 25 = 0 := extractLsb_eq_iff w 31 25 0 (by decide)
  split
  next h => simp only [decode, (dispatch_eq_none_iff w).mpr (mt hhigh.mpr h)]
  next h =>
    have h0 : field w 31 25 = 0 := hhigh.mp (not_not.mp h)
    refine ⟨fun hop => ?_, fun hop => ?_, fun hop => decode_of_opcode (op := 2) h0 hop rfl,
      fun hop => decode_of_opcode (op := 3) h0 hop rfl, fun hop => decode_of_opcode (op := 4) h0 hop rfl,
      fun hop => decode_of_opcode (op := 5) h0 hop rfl, fun hop => decode_of_opcode (op := 6) h0 hop rfl,
      fun hop => decode_of_opcode (op := 7) h0 hop rfl⟩
    · simpa [Instr.wellFormed, destOk] using decode_of_opcode (op := 0) (i := .add _ _ _) h0 hop rfl
    · simpa [Instr.wellFormed, destOk] using decode_of_opcode (op := 1) (i := .nor _ _ _) h0 hop rfl

/-! ## Decode and encode -/

/-- Every instruction, its destination in range or not, is what its packed word is dispatched to. -/
theorem dispatch_encode (i : Instr) : dispatch (encode i) = some i := by
  cases i with
  | add a b dest => exact dispatch_packFields 0 a b dest
  | nor a b dest => exact dispatch_packFields 1 a b dest
  | lw a b raw16 => exact dispatch_packFields 2 a b raw16
  | sw a b raw16 => exact dispatch_packFields 3 a b raw16
  | beq a b raw16 => exact dispatch_packFields 4 a b raw16
  | jalr a b => exact dispatch_packFields 5 a b 0
  | halt => exact dispatch_packFields 6 0 0 0
  | noop => exact dispatch_packFields 7 0 0 0

/-- Settles O8: the packed word is dispatched to the instruction, whose register check passes. -/
theorem decodeOfEncodeIsTheInstruction : Obligations.DecodeOfEncodeIsTheInstruction :=
  fun i hwf => (decode_eq_ok_iff _ i).mpr ⟨dispatch_encode i, hwf⟩

/-- A word is a packing exactly when it has the packed fields, with bits 31:25 clear. -/
theorem packFields_eq_iff {w : Word} {op a b low : Nat} (ho : op < 8) (ha : a < 8) (hb : b < 8) (hl : low < 65536) :
    packFields op a b low = w ↔
      field w 31 25 = 0 ∧ field w 24 22 = op ∧ field w 21 19 = a ∧ field w 18 16 = b ∧ field w 15 0 = low := by
  constructor
  · rintro rfl
    exact packFields_fields ho ha hb hl
  · rintro ⟨hhigh, rfl, rfl, rfl, rfl⟩
    exact packFields_of_fields hhigh

/-- In the R and I formats no bit is ignored: the word is the packing of the instruction it is dispatched to. -/
theorem encode_of_dispatch {w : Word} {i : Instr} (h : dispatch w = some i) (hop : i.opcode ≤ 4) : encode i = w := by
  obtain ⟨hhigh, hopc, hfields⟩ := dispatch_eq_some h
  cases i with
  | add a b d | nor a b d | lw a b d | sw a b d | beq a b d =>
    obtain ⟨rfl, rfl, rfl⟩ := hfields
    have hw := packFields_of_fields hhigh
    rwa [hopc, ← regAOf_val, ← regBOf_val, ← raw16Of_toNat] at hw
  | jalr a b | halt | noop => simp [Instr.opcode] at hop

/-- A J-format word is the packing of its instruction exactly when bits 15:0 are 0 (30_encoding.md R60). -/
theorem encode_jalr_eq_iff {w : Word} {a b : RegIdx} (h : dispatch w = some (.jalr a b)) :
    encode (.jalr a b) = w ↔ field w 15 0 = 0 := by
  obtain ⟨hhigh, hop, rfl, rfl⟩ := dispatch_eq_some h
  rw [encode, packFields_eq_iff (by decide) (Fin.isLt _) (Fin.isLt _) (by decide)]
  simp [hhigh, hop, Instr.opcode, regAOf_val, regBOf_val]

/-- Bits 21:0 are 0 exactly when the three fields they hold are. -/
theorem field_21_0_eq_zero_iff (w : Word) :
    field w 21 0 = 0 ↔ field w 21 19 = 0 ∧ field w 18 16 = 0 ∧ field w 15 0 = 0 := by
  simp only [field]; omega

/-- An O-format word is the packing of its instruction exactly when bits 21:0 are 0 (30_encoding.md R60). -/
theorem encode_oFormat_eq_iff {w : Word} {i : Instr} (h : dispatch w = some i) (hi : i = .halt ∨ i = .noop) :
    encode i = w ↔ field w 21 0 = 0 := by
  obtain ⟨hhigh, hop, -⟩ := dispatch_eq_some h
  rcases hi with rfl | rfl <;>
    simp [encode, packFields_eq_iff, field_21_0_eq_zero_iff, hhigh, hop, Instr.opcode]

/-- Settles O9, by which bits the format of the decoded instruction ignores. -/
theorem encodeOfDecodeIsTheWordIfCanonical : Obligations.EncodeOfDecodeIsTheWordIfCanonical := by
  intro w i h
  obtain ⟨hd, -⟩ := (decode_eq_ok_iff w i).mp h
  obtain ⟨-, hop, -⟩ := dispatch_eq_some hd
  have hopc (k : Nat) (hk : k < 8) : w.extractLsb 24 22 = BitVec.ofNat 3 k ↔ i.opcode = k :=
    hop ▸ extractLsb_eq_iff w 24 22 k hk
  have h5 : w.extractLsb 24 22 = 5 ↔ i.opcode = 5 := hopc 5 (by decide)
  have h6 : w.extractLsb 24 22 = 6 ↔ i.opcode = 6 := hopc 6 (by decide)
  have h7 : w.extractLsb 24 22 = 7 ↔ i.opcode = 7 := hopc 7 (by decide)
  have hlow : w.extractLsb 15 0 = 0 ↔ field w 15 0 = 0 := extractLsb_eq_iff w 15 0 0 (by decide)
  have hlong : w.extractLsb 21 0 = 0 ↔ field w 21 0 = 0 := extractLsb_eq_iff w 21 0 0 (by decide)
  rw [h5, h6, h7, hlow, hlong]
  cases i with
  | add a b d | nor a b d | lw a b d | sw a b d | beq a b d =>
    simp [encode_of_dispatch hd (by simp [Instr.opcode]), Instr.opcode]
  | jalr a b => simp [encode_jalr_eq_iff hd, Instr.opcode]
  | halt => simp [encode_oFormat_eq_iff hd, Instr.opcode]
  | noop => simp [encode_oFormat_eq_iff hd, Instr.opcode]

end Sys2Proof
end

section
/-! The instruction word encoder: its checks by format, its word, and what the word decodes to (30_encoding.md R65 to R67);
the I-format word and the `beq` displacement (R53, R71). -/

namespace Sys2Proof

/-! ## The formats -/

/-- Opcodes 0 and 1 are the R format (30_encoding.md R52). -/
theorem formatOf_eq_r {op : Fin 8} (h : op.val ≤ 1) : formatOf op = .r := if_pos h

/-- Opcodes 2, 3 and 4 are the I format (30_encoding.md R53). -/
theorem formatOf_eq_i {op : Fin 8} (h : 2 ≤ op.val ∧ op.val ≤ 4) : formatOf op = .i := by
  have : ¬ op.val ≤ 1 := by omega
  simp [formatOf, this, h]

/-- Opcode 5 is the J format (30_encoding.md R54). -/
theorem formatOf_eq_j {op : Fin 8} (h : op.val = 5) : formatOf op = .j := by simp [formatOf, h]

/-- Opcodes 6 and 7 are the O format (30_encoding.md R55). -/
theorem formatOf_eq_o {op : Fin 8} (h : 6 ≤ op.val) : formatOf op = .o := by
  obtain ⟨h1, h4, h5⟩ : ¬ op.val ≤ 1 ∧ ¬ op.val ≤ 4 ∧ op.val ≠ 5 := by omega
  simp [formatOf, h1, h4, h5]

/-! ## The checks and the error of each format -/

/-- Both register inputs are in [0,7] (30_encoding.md R65). -/
abbrev EncoderInput.RegsInRange (e : EncoderInput) : Prop := 0 ≤ e.a ∧ e.a ≤ 7 ∧ 0 ≤ e.b ∧ e.b ≤ 7

/-- The two register checks that the R, I and J formats share. -/
theorem EncoderInput.regsOk_iff (e : EncoderInput) : (encoderRegOk e.a && encoderRegOk e.b) = true ↔ e.RegsInRange := by
  simp [encoderRegOk, and_assoc]

/-- The R format checks its three registers, and that the destination is not 0. -/
theorem encoderBlock_rFormat {e : EncoderInput} (h : e.op.val ≤ 1) :
    encoderBlock e =
      if e.RegsInRange ∧ 0 ≤ e.d ∧ e.d ≤ 7 ∧ e.d ≠ 0 then
        .ok (packFields e.op.val e.a.toNat e.b.toNat e.d.toNat)
      else .error .invalidRegister := by
  have hd : (encoderRegOk e.d && decide (e.d ≠ 0)) = true ↔ 0 ≤ e.d ∧ e.d ≤ 7 ∧ e.d ≠ 0 := by
    simp [encoderRegOk, and_assoc]
  simp only [encoderBlock, EncoderInput.error?, EncoderInput.pack, EncoderInput.low, formatOf_eq_r h,
    Bool.and_assoc _ (encoderRegOk e.d), ← e.regsOk_iff, ← hd, ← Bool.and_eq_true]
  cases (encoderRegOk e.a && encoderRegOk e.b) && (encoderRegOk e.d && decide (e.d ≠ 0)) <;> rfl

/-- The I format checks its two registers first, then the offset (decision D23). -/
theorem encoderBlock_iFormat {e : EncoderInput} (h : 2 ≤ e.op.val ∧ e.op.val ≤ 4) :
    encoderBlock e =
      if e.RegsInRange then
        if -32768 ≤ e.off ∧ e.off ≤ 32767 then
          .ok (packFields e.op.val e.a.toNat e.b.toNat (e.off % 65536).toNat)
        else .error .offsetRange
      else .error .invalidRegister := by
  have hoff : encoderOffOk e.off = true ↔ -32768 ≤ e.off ∧ e.off ≤ 32767 := decide_eq_true_iff
  simp only [encoderBlock, EncoderInput.error?, EncoderInput.pack, EncoderInput.low, formatOf_eq_i h,
    ← e.regsOk_iff, ← hoff]
  cases encoderRegOk e.a && encoderRegOk e.b <;> cases encoderOffOk e.off <;> rfl

/-- The J format checks its two registers. -/
theorem encoderBlock_jFormat {e : EncoderInput} (h : e.op.val = 5) :
    encoderBlock e =
      if e.RegsInRange then .ok (packFields e.op.val e.a.toNat e.b.toNat 0) else .error .invalidRegister := by
  simp only [encoderBlock, EncoderInput.error?, EncoderInput.pack, EncoderInput.low, formatOf_eq_j h, ← e.regsOk_iff]
  cases encoderRegOk e.a && encoderRegOk e.b <;> rfl

/-- The O format checks nothing. -/
theorem encoderBlock_oFormat {e : EncoderInput} (h : 6 ≤ e.op.val) :
    encoderBlock e = .ok (packFields e.op.val 0 0 0) := by
  simp only [encoderBlock, EncoderInput.error?, EncoderInput.pack, formatOf_eq_o h]

/-- Settles O12: the verdict of each format, with its checks as they stand in the statement. -/
theorem encoderRefusesWhatIsOutOfRange : Obligations.EncoderRefusesWhatIsOutOfRange := by
  refine fun e => ⟨fun h => ?_, fun h => ?_, fun h => ?_, fun h => ⟨_, encoderBlock_oFormat h⟩⟩
  · rw [encoderBlock_rFormat h]; split <;> simp
  · rw [encoderBlock_iFormat h]; split
    · split <;> simp
    · rfl
  · rw [encoderBlock_jFormat h]; split <;> simp

/-! ## The word of inputs in range -/

/-- A number in [0,7] is that of a register. -/
theorem exists_reg {n : Int} (h : 0 ≤ n ∧ n ≤ 7) : ∃ r : RegIdx, n = r.val :=
  ⟨⟨n.toNat, by omega⟩, (Int.toNat_of_nonneg h.1).symm⟩

/-- Register inputs in range are the numbers of two registers. -/
theorem EncoderInput.RegsInRange.exists_regs {e : EncoderInput} (h : e.RegsInRange) :
    ∃ a b : RegIdx, e.a = a.val ∧ e.b = b.val := by
  obtain ⟨ha0, ha7, hb0, hb7⟩ := h
  obtain ⟨a, ha⟩ := exists_reg ⟨ha0, ha7⟩
  obtain ⟨b, hb⟩ := exists_reg ⟨hb0, hb7⟩
  exact ⟨a, b, ha, hb⟩

/-- An offset in range is the two's complement value of 16 bits. -/
theorem toInt_ofInt16 {off : Int} (h : -32768 ≤ off ∧ off ≤ 32767) : (BitVec.ofInt 16 off).toInt = off :=
  BitVec.toInt_ofInt_eq_self (by decide) h.1 (by omega)

/-- The 16 bits of a two's complement value are that value modulo 2^16 (30_encoding.md R66). -/
theorem toInt16_emod (raw16 : BitVec 16) : raw16.toInt % 65536 = raw16.toNat := by
  have := raw16.isLt
  rw [BitVec.toInt_eq_toNat_cond]; split <;> omega

/-- The numbers of registers pass the register checks. -/
theorem EncoderInput.regsInRange_regs (op : Fin 8) (a b : RegIdx) (d off : Int) :
    RegsInRange ⟨op, a.val, b.val, d, off⟩ := by
  have := a.isLt
  have := b.isLt
  simp only [RegsInRange]; omega

/-- The R-format word, or the refusal of destination 0 (30_encoding.md R65, R76). -/
theorem encoderBlock_rFormat_regs {op : Fin 8} (h : op.val ≤ 1) (a b : RegIdx) {dest : BitVec 16} (hd : dest.toNat ≤ 7)
    (off : Int) :
    encoderBlock ⟨op, a.val, b.val, dest.toNat, off⟩ =
      if dest = 0 then .error .invalidRegister else .ok (packFields op.val a.val b.val dest.toNat) := by
  split
  next h0 => exact h0 ▸ Machine.encoderBlock_rFormat_dest_zero h a b off
  next h0 =>
    have hpos : dest.toNat ≠ 0 := fun hd0 => h0 (BitVec.eq_of_toNat_eq hd0)
    have hin : 0 ≤ (dest.toNat : Int) ∧ (dest.toNat : Int) ≤ 7 ∧ (dest.toNat : Int) ≠ 0 := by omega
    rw [encoderBlock_rFormat h, if_pos ⟨EncoderInput.regsInRange_regs .., hin⟩]
    simp only [Int.toNat_natCast]

/-- The I-format word: every pair of registers and every offset has one. -/
theorem encoderBlock_iFormat_regs {op : Fin 8} (h : 2 ≤ op.val ∧ op.val ≤ 4) (a b : RegIdx) (d : Int)
    (raw16 : BitVec 16) :
    encoderBlock ⟨op, a.val, b.val, d, raw16.toInt⟩ = .ok (packFields op.val a.val b.val raw16.toNat) := by
  have hoff : -32768 ≤ raw16.toInt ∧ raw16.toInt ≤ 32767 := Machine.sext32_eq_toInt raw16 ▸ Machine.sext32_range raw16
  rw [encoderBlock_iFormat h, if_pos (EncoderInput.regsInRange_regs ..), if_pos hoff, toInt16_emod]
  simp only [Int.toNat_natCast]

/-- The J-format word: every pair of registers has one. -/
theorem encoderBlock_jFormat_regs {op : Fin 8} (h : op.val = 5) (a b : RegIdx) (d off : Int) :
    encoderBlock ⟨op, a.val, b.val, d, off⟩ = .ok (packFields op.val a.val b.val 0) := by
  rw [encoderBlock_jFormat h, if_pos (EncoderInput.regsInRange_regs ..)]
  simp only [Int.toNat_natCast]

/-- Settles O14: each instruction by the word of its format. -/
theorem encoderBlockGivesTheInstructionsWord : Obligations.EncoderBlockGivesTheInstructionsWord := by
  intro i hwf
  cases i with
  | add a b dest => exact encoderBlock_rFormat_regs (by decide) a b (of_decide_eq_true hwf) 0
  | nor a b dest => exact encoderBlock_rFormat_regs (by decide) a b (of_decide_eq_true hwf) 0
  | lw a b raw16 => exact encoderBlock_iFormat_regs (by decide) a b 0 raw16
  | sw a b raw16 => exact encoderBlock_iFormat_regs (by decide) a b 0 raw16
  | beq a b raw16 => exact encoderBlock_iFormat_regs (by decide) a b 0 raw16
  | jalr a b => exact encoderBlock_jFormat_regs rfl a b 0 0
  | halt => exact encoderBlock_oFormat (by decide)
  | noop => exact encoderBlock_oFormat (by decide)

/-! ## The inputs of an emitted word -/

/-- The inputs that have a word, and the word: the register inputs of its format are register numbers, a destination
is at most 7, and an offset is a two's complement value of 16 bits (30_encoding.md R65, R66). -/
theorem encoderBlock_ok_cases {e : EncoderInput} {w : Word} (h : encoderBlock e = .ok w) :
    (e.op.val ≤ 1 ∧ ∃ (a b : RegIdx) (dest : BitVec 16), dest.toNat ≤ 7 ∧
      e = ⟨e.op, a.val, b.val, dest.toNat, e.off⟩ ∧ w = packFields e.op.val a.val b.val dest.toNat) ∨
    ((2 ≤ e.op.val ∧ e.op.val ≤ 4) ∧ ∃ (a b : RegIdx) (raw16 : BitVec 16),
      e = ⟨e.op, a.val, b.val, e.d, raw16.toInt⟩ ∧ w = packFields e.op.val a.val b.val raw16.toNat) ∨
    (e.op.val = 5 ∧ ∃ a b : RegIdx,
      e = ⟨e.op, a.val, b.val, e.d, e.off⟩ ∧ w = packFields e.op.val a.val b.val 0) ∨
    (6 ≤ e.op.val ∧ w = packFields e.op.val 0 0 0) := by
  obtain hop | hop | hop | hop :
      e.op.val ≤ 1 ∨ (2 ≤ e.op.val ∧ e.op.val ≤ 4) ∨ e.op.val = 5 ∨ 6 ≤ e.op.val := by omega
  · rw [encoderBlock_rFormat hop] at h
    split at h
    next hin =>
      obtain ⟨hregs, hd0, hd7, -⟩ := hin
      obtain ⟨a, b, ha, hb⟩ := hregs.exists_regs
      have hd := Machine.natCast_toNat_ofInt16_of_inMemory ((Machine.inMemory_iff e.d).mpr ⟨hd0, by omega⟩)
      rw [ha, hb, ← hd] at h
      exact .inl ⟨hop, a, b, _, by omega, by rw [← ha, ← hb, hd], (Except.ok.inj h).symm⟩
    next => cases h
  · rw [encoderBlock_iFormat hop] at h
    split at h
    next hregs =>
      obtain ⟨a, b, ha, hb⟩ := hregs.exists_regs
      split at h
      next hoff =>
        have hraw := toInt_ofInt16 hoff
        rw [ha, hb, ← hraw, toInt16_emod] at h
        exact .inr (.inl ⟨hop, a, b, _, by rw [← ha, ← hb, hraw], (Except.ok.inj h).symm⟩)
      next => cases h
    next => cases h
  · rw [encoderBlock_jFormat hop] at h
    split at h
    next hregs =>
      obtain ⟨a, b, ha, hb⟩ := hregs.exists_regs
      rw [ha, hb] at h
      exact .inr (.inr (.inl ⟨hop, a, b, by rw [← ha, ← hb], (Except.ok.inj h).symm⟩))
    next => cases h
  · rw [encoderBlock_oFormat hop] at h
    exact .inr (.inr (.inr ⟨hop, (Except.ok.inj h).symm⟩))

/-- Settles O13: the formula of each format as a number, and the two views of destination 0. -/
theorem encoderPacksFieldsByFormula : Obligations.EncoderPacksFieldsByFormula := by
  refine ⟨fun e w h => ?_, fun op a b off hop => ?_, rfl, fun _ => rfl⟩
  · have hlt := e.op.isLt
    obtain ⟨hop, a, b, dest, _, he, rfl⟩ | ⟨hop, a, b, raw16, he, rfl⟩ | ⟨hop, a, b, he, rfl⟩ | ⟨hop, rfl⟩ :=
      encoderBlock_ok_cases h
    · rw [packFields_toNat hlt a.isLt b.isLt dest.isLt, if_pos hop, he]
      simp
    · rw [packFields_toNat hlt a.isLt b.isLt raw16.isLt, if_neg (by omega), if_pos hop.2, he]
      simp [toInt16_emod]
    · rw [packFields_toNat hlt a.isLt b.isLt (by decide), if_neg (by omega), if_neg (by omega), if_pos hop, hop, he]
      simp
    · rw [packFields_toNat hlt (by decide) (by decide) (by decide), if_neg (by omega), if_neg (by omega),
        if_neg (by omega)]
      simp
  · simp only [EncoderInput.pack, EncoderInput.low, formatOf_eq_r hop, Int.toNat_natCast, Int.toNat_zero,
      packFields_toNat op.isLt a.isLt b.isLt (by decide : 0 < 65536), Nat.add_zero]

/-- The opcode of an instruction is the number that selects it. -/
theorem Instr.opcode_ofFields (op : Fin 8) (a b : RegIdx) (raw16 : BitVec 16) :
    (Instr.ofFields op a b raw16).opcode = op.val := by
  fin_cases op <;> rfl

/-- The register check looks at the low field of the R format alone (30_encoding.md R59). -/
theorem Instr.wellFormed_ofFields {op : Fin 8} (a b : RegIdx) {raw16 : BitVec 16} (h : op.val ≤ 1 → raw16.toNat ≤ 7) :
    (Instr.ofFields op a b raw16).wellFormed = true := by
  match op with
  | 0 | 1 => exact decide_eq_true (h (by decide))
  | 2 | 3 | 4 | 5 | 6 | 7 => rfl

/-- A packed word is legal, and decodes to the instruction of its fields, when its R-format register check passes. -/
theorem decode_packFields {op : Fin 8} (a b : RegIdx) {raw16 : BitVec 16} (h : op.val ≤ 1 → raw16.toNat ≤ 7) :
    decode (packFields op.val a.val b.val raw16.toNat) = .ok (.ofFields op a b raw16) :=
  (decode_eq_ok_iff _ _).mpr ⟨dispatch_packFields op a b raw16, Instr.wellFormed_ofFields a b h⟩

/-- The fields of an instruction, as the encoder's inputs (30_encoding.md R64). -/
theorem EncoderInput.ofInstr_ofFields (op : Fin 8) (a b : RegIdx) (raw16 : BitVec 16) :
    (op.val ≤ 1 → ofInstr (.ofFields op a b raw16) = ⟨op, a.val, b.val, raw16.toNat, 0⟩) ∧
      (2 ≤ op.val ∧ op.val ≤ 4 → ofInstr (.ofFields op a b raw16) = ⟨op, a.val, b.val, 0, raw16.toInt⟩) ∧
      (op.val = 5 → ofInstr (.ofFields op a b raw16) = ⟨op, a.val, b.val, 0, 0⟩) := by
  match op with
  | 0 | 1 => exact ⟨fun _ => rfl, nofun, nofun⟩
  | 2 | 3 | 4 => exact ⟨nofun, fun _ => rfl, nofun⟩
  | 5 => exact ⟨nofun, nofun, fun _ => rfl⟩
  | 6 | 7 => exact ⟨nofun, nofun, nofun⟩

/-- Settles O15: the emitted word is the packing of the inputs, and decodes to the instruction of the packed fields. -/
theorem encodedWordDecodesToItsInputs : Obligations.EncodedWordDecodesToItsInputs := by
  intro e w h
  obtain ⟨hop, a, b, dest, hd, he, rfl⟩ | ⟨hop, a, b, raw16, he, rfl⟩ | ⟨hop, a, b, he, rfl⟩ | ⟨hop, rfl⟩ :=
    encoderBlock_ok_cases h
  · obtain ⟨hr, -, -⟩ := EncoderInput.ofInstr_ofFields e.op a b dest
    refine ⟨_, decode_packFields a b fun _ => hd, Instr.opcode_ofFields .., fun _ => ?_, by omega, by omega⟩
    rw [hr hop, he]
  · obtain ⟨-, hi, -⟩ := EncoderInput.ofInstr_ofFields e.op a b raw16
    refine ⟨_, decode_packFields a b (by omega), Instr.opcode_ofFields .., by omega, fun _ => ?_, by omega⟩
    rw [hi hop, he]
  · obtain ⟨-, -, hj⟩ := EncoderInput.ofInstr_ofFields e.op a b 0
    refine ⟨_, decode_packFields (raw16 := 0) a b (by omega), Instr.opcode_ofFields .., by omega, by omega, fun _ => ?_⟩
    rw [hj hop, he]
  · exact ⟨_, decode_packFields (raw16 := 0) 0 0 (by omega), Instr.opcode_ofFields .., by omega, by omega, by omega⟩

/-! ## The I format -/

/-- A packed word is its fields side by side (30_encoding.md R51). -/
theorem packFields_eq_append (op : Fin 8) (a b : RegIdx) (raw16 : BitVec 16) :
    packFields op.val a.val b.val raw16.toNat =
      0#7 ++ BitVec.ofNat 3 op.val ++ BitVec.ofNat 3 a.val ++ BitVec.ofNat 3 b.val ++ raw16 := by
  obtain ⟨hhigh, hop, ha, hb, hraw⟩ := packFields_fields op.isLt a.isLt b.isLt raw16.isLt
  rw [word_eq_append_fields (packFields _ _ _ _), hhigh, hop, ha, hb, hraw, BitVec.ofNat_toNat, BitVec.setWidth_eq]

/-- Fields side by side are dispatched to the instruction with these fields. -/
theorem dispatch_append (op : Fin 8) (a b : RegIdx) (raw16 : BitVec 16) :
    dispatch (0#7 ++ BitVec.ofNat 3 op.val ++ BitVec.ofNat 3 a.val ++ BitVec.ofNat 3 b.val ++ raw16) =
      some (.ofFields op a b raw16) :=
  packFields_eq_append op a b raw16 ▸ dispatch_packFields op a b raw16

/-- Settles O47: the packed word as its fields side by side, and one word for each instruction of the format. -/
theorem iFormatWordIsItsFieldsSideBySide : Obligations.IFormatWordIsItsFieldsSideBySide := by
  refine ⟨fun op a b d off h2 h4 hlo hhi => ?_, fun a b raw16 => ⟨dispatch_append 2 a b raw16,
    dispatch_append 3 a b raw16, dispatch_append 4 a b raw16, Machine.sext32_eq_toInt raw16⟩,
    fun w w' i h h' _ h4 => ?_⟩
  · have hword := encoderBlock_iFormat_regs ⟨h2, h4⟩ a b d (BitVec.ofInt 16 off)
    rwa [toInt_ofInt16 ⟨hlo, hhi⟩, packFields_eq_append] at hword
  · exact (encode_of_dispatch h h4).symm.trans (encode_of_dispatch h' h4)

/-! ## The `beq` displacement -/

/-- Settles O43: the branch is taken, and its target is `npc` plus the displacement. -/
theorem beqDisplacementReachesTheLabel : Obligations.BeqDisplacementReachesTheLabel := by
  intro s a b raw16 label hraw hab
  refine ⟨_, Machine.exec_of_answers rfl, ?_⟩
  rw [Machine.State.commit_pc, if_pos hab, Machine.State.branchTarget, Machine.sext32_eq_toInt, hraw, beqDisplacement,
    Machine.State.npc]
  omega

end Sys2Proof
end

section
/-! The step cycle (40_step_cycle.md): a word that is not read does not matter, and a step commits or only faults. -/

namespace Sys2Proof.Machine

/-! ## A word that is not read -/

/-- Every memory word but one is the same. -/
def SameMemoryBut (k : Nat) (s t : State) : Prop := ∀ n, n ≠ k → t.memWord n = s.memWord n

/-- Addresses inside the memory that differ as integers name different words. -/
theorem toNat_ne_of_inMemory {addr : Int} {k : Nat} (h : inMemory addr = true) (hne : addr ≠ k) : addr.toNat ≠ k := by
  rw [inMemory_iff] at h; omega

section
variable {s t : State} {m : Memory} {k : Nat} {i : Instr}

/-- The front of a step reads the word at the pc and no other (20_memory.md R43). -/
theorem State.nextInstr_of_sameMemoryBut (hmem : SameMemoryBut k s { s with mem := m }) (hpc : s.pc ≠ k) :
    State.nextInstr { s with mem := m } = s.nextInstr := by
  have hfetch : State.fetch { s with mem := m } = s.fetch := by
    by_cases hi : inMemory s.pc = true
    · exact (State.fetch_at { s with mem := m } hi).trans
        ((congrArg Except.ok (hmem _ (toNat_ne_of_inMemory hi hpc))).trans (s.fetch_at hi).symm)
    · exact (if_neg hi).trans (if_neg hi).symm
  simp only [State.nextInstr, hfetch]

/-- With another memory, the same but for a word that is neither fetched nor loaded, an instruction has the same answer but
for that word. -/
theorem Answers.of_sameMemoryBut (ha : Answers i s t) (hmem : SameMemoryBut k s { s with mem := m })
    (hfetched : State.fetchedWord { s with mem := m } = s.fetchedWord)
    (hload : ∀ a b raw16, i = .lw a b raw16 → s.effectiveAddress a raw16 ≠ k) :
    ∃ m', Answers i { s with mem := m } { t with mem := m' } ∧ SameMemoryBut k t { t with mem := m' } := by
  cases i with
  | add a b dest | nor a b dest =>
    obtain ⟨hd, rfl⟩ | ⟨d, hd, rfl⟩ := ha
    · exact ⟨m, .inl ⟨hd, by rw [hfetched]; rfl⟩, hmem⟩
    · exact ⟨m, .inr ⟨d, hd, rfl⟩, hmem⟩
  | lw a b raw16 =>
    obtain ⟨hi, rfl⟩ | ⟨hi, rfl⟩ := ha
    · exact ⟨m, .inl ⟨hi, rfl⟩, hmem⟩
    · have hword := hmem _ (toNat_ne_of_inMemory hi (hload a b raw16 rfl))
      exact ⟨m, .inr ⟨hi, by rw [← hword]; rfl⟩, hmem⟩
  | sw a b raw16 =>
    obtain ⟨hi, rfl⟩ | ⟨hi, rfl⟩ := ha
    · exact ⟨m, .inl ⟨hi, rfl⟩, hmem⟩
    · refine ⟨m.put (s.effectiveAddress a raw16).toNat (s.reg b), .inr ⟨hi, rfl⟩, fun n hn => ?_⟩
      rw [State.memWord_put_commit, ← hmem n hn]
      exact State.memWord_put_commit { s with mem := m } _ n _ s.npc
  | beq a b raw16 | jalr a b | halt | noop =>
    obtain rfl := ha
    exact ⟨m, rfl, hmem⟩

/-- With another memory, the same but for a word that is neither fetched nor loaded, a step goes to the same state but for
that word. -/
theorem step_of_sameMemoryBut (hstep : step s = .next t) (hmem : SameMemoryBut k s { s with mem := m })
    (hpc : s.pc ≠ k) (hload : ∀ a b raw16, s.nextInstr = .ok (.lw a b raw16) → s.effectiveAddress a raw16 ≠ k) :
    ∃ m', step { s with mem := m } = .next { t with mem := m' } ∧ SameMemoryBut k t { t with mem := m' } := by
  have hnext := State.nextInstr_of_sameMemoryBut hmem hpc
  obtain ⟨hstop, rfl⟩ | ⟨hr, r, hn, rfl⟩ | ⟨hr, i, hn, ha⟩ := step_cases hstep
  · exact ⟨m, step_of_stopped hstop, hmem⟩
  · exact ⟨m, step_of_raise hr (hnext.trans hn), hmem⟩
  · obtain ⟨hi, -⟩ := State.nextInstr_ok hn
    obtain ⟨m', ha', hmem'⟩ := ha.of_sameMemoryBut hmem (hmem _ (toNat_ne_of_inMemory hi hpc))
      fun a b raw16 e => hload a b raw16 (e ▸ hn)
    have hrun : step { s with mem := m } = exec i { s with mem := m } := step_of_nextInstr hr (hnext.trans hn)
    exact ⟨m', hrun.trans (exec_of_answers ha'), hmem'⟩

end

/-- Settles O42: the second state is the first with another memory, and so is its next state. -/
theorem unreadWordDoesNotInfluenceTheStep : Obligations.UnreadWordDoesNotInfluenceTheStep := by
  intro s s' t t' k hs hmem hpc hload hstep hstep'
  rw [hs] at hmem hstep'
  obtain ⟨m', ht, hmem'⟩ := step_of_sameMemoryBut hstep hmem hpc hload
  obtain rfl := Host.Outcome.next.inj (ht.symm.trans hstep')
  exact ⟨rfl, hmem'⟩

/-! ## Commit or fault -/

/-- What every commit does beside its own effect, that of a `halt` too: the step is counted, the record stays, and the core
halts exactly by a `halt` (40_step_cycle.md R89, 44_halt_noop.md R130). -/
structure CommitFrame (i : Instr) (s t : State) : Prop where
  run : t.run = if i = .halt then .halted else s.run
  icount : t.icount = s.icount + 1
  record : SameRecord s t

/-- An instruction commits, or takes a fault of one of two causes and changes nothing else. -/
theorem Answers.fault_or_commit {i : Instr} {s t : State} (h : Answers i s t) :
    (∃ cause info, (cause = .invalidRegister ∨ cause = .memoryBounds) ∧ t = s.takeFault cause info) ∨
      CommitFrame i s t := by
  cases i with
  | add a b dest | nor a b dest =>
    obtain ⟨_, rfl⟩ | ⟨d, _, rfl⟩ := h
    · exact .inl ⟨_, _, .inl rfl, rfl⟩
    · exact .inr ⟨rfl, rfl, rfl, rfl, rfl⟩
  | lw a b raw16 | sw a b raw16 =>
    obtain ⟨_, rfl⟩ | ⟨_, rfl⟩ := h
    · exact .inl ⟨_, _, .inr rfl, rfl⟩
    · exact .inr ⟨rfl, rfl, rfl, rfl, rfl⟩
  | beq a b raw16 | jalr a b | halt | noop =>
    obtain rfl := h
    exact .inr ⟨rfl, rfl, rfl, rfl, rfl⟩

/-- The front of a step raises two causes only (60_exceptions.md R142, R145). -/
theorem State.nextInstr_error_cause {s : State} {r : Raise} (h : s.nextInstr = .error r) :
    r.cause = .pcOutOfRange ∨ r.cause = .unsupportedOpcode := by
  rcases s.nextInstr_cases with ⟨_, hn⟩ | ⟨_, _, hn⟩ | ⟨_, i, _, hn⟩
  · obtain rfl := Except.error.inj (hn.symm.trans h)
    exact .inl rfl
  · obtain rfl := Except.error.inj (hn.symm.trans h)
    exact .inr rfl
  · simp [hn] at h

/-- A step leaves a stopped core as it is; of a Running one it takes a fault and changes nothing else, or commits the fetched
instruction. -/
theorem step_fault_or_commit {s t : State} (h : step s = .next t) :
    (s.run ≠ .running ∧ t = s) ∨
      (∃ cause info, cause ≠ .noFault ∧ cause ≠ .offsetRange ∧ t = s.takeFault cause info) ∨
      (s.run = .running ∧ ∃ i, s.nextInstr = .ok i ∧ Answers i s t ∧ CommitFrame i s t) := by
  obtain hstop | ⟨_, r, hn, rfl⟩ | ⟨hr, i, hn, ha⟩ := step_cases h
  · exact .inl hstop
  · rcases State.nextInstr_error_cause hn with hc | hc <;>
      exact .inr (.inl ⟨r.cause, r.info, by simp [hc], by simp [hc], rfl⟩)
  · obtain ⟨cause, info, hc, ht⟩ | hcommit := ha.fault_or_commit
    · rcases hc with hc | hc <;> exact .inr (.inl ⟨cause, info, by simp [hc], by simp [hc], ht⟩)
    · exact .inr (.inr ⟨hr, i, hn, ha, hcommit⟩)

/-- A Running core halts exactly by the commit of a `halt`. -/
theorem CommitFrame.halted_iff {i : Instr} {s t : State} (h : CommitFrame i s t) (hr : s.run = .running) :
    t.run = .halted ↔ i = .halt := by
  rw [h.run, hr]
  split <;> simp [*]

/-- A commit does not fault a Running core. -/
theorem CommitFrame.not_faulted {i : Instr} {s t : State} (h : CommitFrame i s t) (hr : s.run = .running) :
    t.run ≠ .faulted := by
  rw [h.run, hr]
  split <;> simp

/-- A `sw` that commits has stored `x[b]` at its effective address, which is in bounds, and nothing anywhere else. -/
theorem CommitFrame.sw_memory {a b : RegIdx} {raw16 : BitVec 16} {s t : State} (h : CommitFrame (.sw a b raw16) s t)
    (ha : Answers (.sw a b raw16) s t) :
    inMemory (s.effectiveAddress a raw16) = true ∧
      ∀ n, t.memWord n = if n = (s.effectiveAddress a raw16).toNat then s.reg b else s.memWord n := by
  obtain ⟨_, rfl⟩ | ⟨hi, rfl⟩ := ha
  · exact absurd h.icount (by simp)
  · exact ⟨hi, fun n => State.memWord_put_commit s _ n _ _⟩

/-- Settles O33: a fault is taken whole; a commit has its frame, the frame of the registers, and that of the memory. -/
theorem stepCommitsWhollyOrOnlyFaults : Obligations.StepCommitsWhollyOrOnlyFaults := by
  intro s t hr hstep
  obtain ⟨hstop, _⟩ | ⟨cause, info, hnone, hoff, rfl⟩ | ⟨_, i, hn, ha, hcommit⟩ := step_fault_or_commit hstep
  · exact absurd hr hstop
  · exact .inl ⟨cause, info, hnone, hoff, s.takeFault_faultTaken cause info⟩
  · refine .inr ⟨i, hn, exec_of_answers ha, hcommit.not_faulted hr, hcommit.icount, hcommit.record,
      hcommit.halted_iff hr, fun r => ha.reg_eq, ?_⟩
    split
    · obtain ⟨hi, hmem⟩ := hcommit.sw_memory ha
      rw [inMemory_iff] at hi
      exact ⟨hi.1, by omega, by simp [hmem], fun n hne => by simp [hmem, hne]⟩
    · rename_i hsw
      obtain hsame | ⟨a, b, raw16, hi, _⟩ := ha.memory
      · exact hsame
      · exact absurd hi (hsw a b raw16)

/-- Settles O34: the range of the offset, and the causes a step can record. -/
theorem offsetRangeIsNeverRecorded : Obligations.OffsetRangeIsNeverRecorded := by
  refine ⟨fun v => ⟨sext32_eq_toInt v, sext32_range v⟩, fun s t hstep hs => ?_⟩
  obtain ⟨_, rfl⟩ | ⟨cause, info, _, hoff, rfl⟩ | ⟨_, i, _, _, hcommit⟩ := step_fault_or_commit hstep
  · exact hs
  · exact hoff
  · obtain ⟨hcause, _⟩ := hcommit.record
    rwa [hcause]

/-- The commit of a fetched `halt` leaves the core one word after it. -/
theorem State.haltBehind_of_halt {s : State} (h : s.nextInstr = .ok .halt) : (s.halt.commit s.npc).haltBehind := by
  obtain ⟨hpc, hd⟩ := State.nextInstr_ok h
  rw [inMemory_iff] at hpc
  have hback : s.npc - 1 = s.pc := by simp [State.npc]
  intro _
  rw [State.commit_pc, State.memWord_commit, State.memWord_halt, State.commit_icount, hback]
  exact ⟨by omega, by omega, hd, by omega⟩

/-- Settles O7: a stopped core stays, a faulting one is not Halted, and a commit halts by a `halt` only. -/
theorem haltedCoreStandsAfterHalt : Obligations.HaltedCoreStandsAfterHalt := by
  intro s t h hstep
  obtain ⟨_, rfl⟩ | ⟨cause, info, _, _, rfl⟩ | ⟨hr, i, hn, ha, hcommit⟩ := step_fault_or_commit hstep
  · exact h
  · exact nofun
  · intro hhalted
    obtain rfl := (hcommit.halted_iff hr).mp hhalted
    obtain rfl := ha
    exact State.haltBehind_of_halt hn hhalted

/-! ## A branch to itself -/

/-- The step of a core that stands on a branch to itself is counted and changes nothing else: offset -1 undoes the increment
of the pc (43_control_transfer.md R120). -/
theorem step_selfBranch {s : State} {a : RegIdx} (hr : s.run = .running) (hn : s.nextInstr = .ok (.beq a a 0xFFFF)) :
    step s = .next { s with icount := s.icount + 1 } := by
  have htarget : s.branchTarget 0xFFFF = s.pc := by simp [State.branchTarget, State.npc, sext32]
  rw [step_of_nextInstr hr hn, exec_of_answers (i := .beq a a 0xFFFF) rfl, if_pos rfl, htarget]
  rfl

/-- Settles O28, by induction on the number of steps: after one the core stands on the same branch. -/
theorem selfBranchNeverEnds : Obligations.SelfBranchNeverEnds := by
  intro s a hr hn k
  induction k generalizing s with
  | zero => rfl
  | succ k ih =>
    have hstep : Host.Core.step core s = .next { s with icount := s.icount + 1 } := step_selfBranch hr hn
    simp only [Host.Core.run, hstep]
    rw [ih { s with icount := s.icount + 1 } hr hn, Nat.add_right_comm, Nat.add_assoc]

/-! ## The step and `exec` -/

/-- Settles O25: inside the memory the front of the step gives the dispatched instruction, which a legal word decodes to. -/
theorem stepRunsTheDecodedInstruction : Obligations.StepRunsTheDecodedInstruction := by
  intro s i hr h0 h1
  have hrun : dispatch (s.memWord s.pc.toNat) = some i → step s = exec i s := by
    intro hd
    have hpc : inMemory s.pc = true := (inMemory_iff _).mpr ⟨h0, by omega⟩
    refine step_of_nextInstr hr ?_
    rcases s.nextInstr_cases with ⟨hout, _⟩ | ⟨_, hnone, _⟩ | ⟨_, j, hj, hn⟩
    · simp [hpc] at hout
    · simp [hd] at hnone
    · rw [hn, Option.some.inj (hj.symm.trans hd)]
  exact ⟨fun hdec => hrun ((decode_eq_ok_iff _ i).mp hdec).1, hrun⟩

/-- Every instruction has an answer in every state. -/
theorem exists_answers (i : Instr) (s : State) : ∃ t, Answers i s t := by
  cases i with
  | add a b dest | nor a b dest =>
    rcases destReg?_cases dest with ⟨_, d, _, hd⟩ | ⟨_, hd⟩
    · exact ⟨_, .inr ⟨d, hd, rfl⟩⟩
    · exact ⟨_, .inl ⟨hd, rfl⟩⟩
  | lw a b raw16 | sw a b raw16 =>
    cases hi : inMemory (s.effectiveAddress a raw16)
    · exact ⟨_, .inl ⟨hi, rfl⟩⟩
    · exact ⟨_, .inr ⟨hi, rfl⟩⟩
  | beq a b raw16 | jalr a b | halt | noop => exact ⟨_, rfl⟩

/-- Settles O26: a stopped core stays, and a Running one takes the fault of its fetch or runs an instruction, which answers. -/
theorem everyStepAnswersANextState : Obligations.EveryStepAnswersANextState := by
  have hexec (i : Instr) (s : State) : ∃ t, exec i s = .next t := (exists_answers i s).imp fun _ => exec_of_answers
  refine ⟨fun s => ?_, hexec⟩
  by_cases hr : s.run = .running
  · cases hn : s.nextInstr with
    | error r => exact ⟨_, step_of_raise hr hn⟩
    | ok i => exact step_of_nextInstr hr hn ▸ hexec i s
  · exact ⟨s, step_of_stopped hr⟩

end Sys2Proof.Machine
end

section
/-! The R-format instructions (41_alu_add_nor.md): the register they write, and the frame of a commit that writes one. -/

namespace Sys2Proof.Machine

/-- A commit that writes one register leaves every other register and all memory, and is counted
(40_step_cycle.md R89, 10_state.md R14). -/
theorem State.writeReg_commit_frame (s : State) (d : RegIdx) (v : Word) (target : Int) :
    SameRegsBut d s ((s.writeReg d v).commit target) ∧ SameMemory s ((s.writeReg d v).commit target) ∧
      Committed s ((s.writeReg d v).commit target) :=
  ⟨fun r hr => by simp [hr], fun _ => rfl, (s.writeReg d v).commit_committed target⟩

/-- Settles O16: `add` answers with the commit of the ALU's sum, which is the addition of words. -/
theorem addWritesWrappedSum : Obligations.AddWritesWrappedSum := by
  intro s a b d dest hd
  have hsum : ((s.writeReg d (aluAdd (s.reg a) (s.reg b))).commit s.npc).reg d = s.reg a + s.reg b := by
    simp [aluAdd_eq_add]
  refine ⟨_, exec_of_answers (.inr ⟨d, destReg?_of_toNat_eq hd, rfl⟩), ?_, ?_, rfl, s.writeReg_commit_frame d _ _⟩
  · rw [hsum, BitVec.toNat_add]
  · rw [hsum, BitVec.toInt_add]

/-- Settles O17: `nor` answers with the commit of the ALU's nor, read bit by bit. -/
theorem norWritesBitwiseNor : Obligations.NorWritesBitwiseNor := by
  intro s a b d dest hd
  have hnor : ((s.writeReg d (aluNor (s.reg a) (s.reg b))).commit s.npc).reg d = ~~~(s.reg a ||| s.reg b) := by
    simp [aluNor]
  refine ⟨_, exec_of_answers (.inr ⟨d, destReg?_of_toNat_eq hd, rfl⟩), fun k hk => ?_, rfl,
    s.writeReg_commit_frame d _ _⟩
  rw [hnor, BitVec.getLsbD_not, BitVec.getLsbD_or, decide_eq_true hk, Bool.true_and, Bool.not_or]

end Sys2Proof.Machine
end

section
/-! The load/store unit (42_load_store.md): the effective address, the words of `lw` and `sw`, and what each does in bounds and
out of bounds. -/

namespace Sys2Proof.Machine

/-! ## The effective address -/

/-- The effective address in the terms of Lean's signed reading (42_load_store.md R110). -/
theorem State.effectiveAddress_eq_toInt_add (s : State) (a : RegIdx) (raw16 : BitVec 16) :
    s.effectiveAddress a raw16 = (s.reg a).toInt + raw16.toInt := by
  rw [State.effectiveAddress, signed_eq_toInt, sext32_eq_toInt]

/-- A 32-bit sum of the base and the sign-extended offset is the effective address, wrapped. -/
theorem State.toInt_reg_add_signExtend (s : State) (a : RegIdx) (raw16 : BitVec 16) :
    (s.reg a + raw16.signExtend 32).toInt = (s.effectiveAddress a raw16).bmod (2 ^ 32) := by
  rw [BitVec.toInt_add, BitVec.toInt_signExtend_of_le (by decide), s.effectiveAddress_eq_toInt_add]

/-- An effective address is so close to the signed 32-bit range that the wrap moves it far from the memory: it is not moved
if either of the two sums is in the memory. -/
theorem State.bmod_effectiveAddress (s : State) (a : RegIdx) (raw16 : BitVec 16)
    (h : inMemory (s.effectiveAddress a raw16) = true ∨
      inMemory ((s.effectiveAddress a raw16).bmod (2 ^ 32)) = true) :
    (s.effectiveAddress a raw16).bmod (2 ^ 32) = s.effectiveAddress a raw16 := by
  have hrange := s.effectiveAddress_range a raw16
  simp only [inMemory_iff, Int.bmod_def] at h ⊢
  split at h <;> omega

/-- Settles O39: the wrapped sum is the exact one as soon as either lies in the memory. -/
theorem effectiveAddressIsTheExactSum : Obligations.EffectiveAddressIsTheExactSum := by
  rintro s a raw16 _ rfl
  have hwrap := s.bmod_effectiveAddress a raw16
  obtain ⟨hlo, hhi⟩ := s.effectiveAddress_range a raw16
  rw [s.toInt_reg_add_signExtend]
  simp only [inMemory_iff] at hwrap
  refine ⟨s.effectiveAddress_eq_toInt_add a raw16, hlo, hhi, ⟨fun h => ?_, fun h => ?_⟩, fun h => hwrap (.inl (by omega))⟩
  · rwa [hwrap (.inl (by omega))]
  · rwa [hwrap (.inr (by omega))] at h

/-! ## `lw` and `sw` -/

/-- The packing formula of the I format, with the stored offset as a residue (30_encoding.md R66). -/
theorem packFields_iFormat_toNat {op : Nat} (h : op < 8) (a b : RegIdx) (raw16 : BitVec 16) :
    ((packFields op a.val b.val raw16.toNat).toNat : Int) =
      op * 2 ^ 22 + a.val * 2 ^ 19 + b.val * 2 ^ 16 + raw16.toInt % 2 ^ 16 := by
  rw [packFields_toNat h a.isLt b.isLt raw16.isLt]
  simp [toInt16_emod]

/-- Out of bounds `lw` and `sw` take the same fault, with the exact address (42_load_store.md R110, 60_exceptions.md R146). -/
theorem exec_memoryBounds {s : State} {a : RegIdx} {raw16 : BitVec 16} (b : RegIdx)
    (h : s.effectiveAddress a raw16 < 0 ∨ 65535 < s.effectiveAddress a raw16) :
    (∃ t, exec (.lw a b raw16) s = .next t ∧ FaultTaken .memoryBounds (s.effectiveAddress a raw16) s t) ∧
      ∃ t, exec (.sw a b raw16) s = .next t ∧ FaultTaken .memoryBounds (s.effectiveAddress a raw16) s t := by
  have hi : inMemory (s.effectiveAddress a raw16) = false := (inMemory_false_iff _).mpr (by omega)
  exact ⟨⟨_, exec_of_answers (.inl ⟨hi, rfl⟩), s.takeFault_faultTaken _ _⟩,
    _, exec_of_answers (.inl ⟨hi, rfl⟩), s.takeFault_faultTaken _ _⟩

/-- Settles O19: in bounds the answer is a commit that writes one register, the loaded word. -/
theorem lwLoadsTheWordAtItsAddress : Obligations.LwLoadsTheWordAtItsAddress := by
  rintro s a b raw16 _ rfl
  refine ⟨packFields_iFormat_toNat (by decide) a b raw16, dispatch_encode _, s.effectiveAddress_eq_toInt_add a raw16,
    fun h => ?_, fun h => (exec_memoryBounds b h).1⟩
  have hi : inMemory (s.effectiveAddress a raw16) = true := (inMemory_iff _).mpr (by omega)
  exact ⟨_, exec_lw_of_inMemory b hi, by simp, rfl, s.writeReg_commit_frame b _ _⟩

/-- A core whose pc is an address of the memory fetches the word there (40_step_cycle.md R82). -/
theorem State.fetch_of_pc_eq {s : State} {addr : Int} (hpc : s.pc = addr) (h : inMemory addr = true) :
    s.fetch = .ok (s.memWord addr.toNat) := by
  subst hpc
  exact s.fetch_at h

/-- Settles O20: in bounds the answer is a commit of the memory with one word replaced, and a core that then stands at that
word fetches it. -/
theorem swStoresOneWordAtItsAddress : Obligations.SwStoresOneWordAtItsAddress := by
  rintro s a b raw16 _ rfl
  refine ⟨packFields_iFormat_toNat (by decide) a b raw16, dispatch_encode _, s.effectiveAddress_eq_toInt_add a raw16,
    fun h => ?_, fun h => (exec_memoryBounds b h).2⟩
  have hi : inMemory (s.effectiveAddress a raw16) = true := (inMemory_iff _).mpr (by omega)
  have hmem (n : Nat) := s.memWord_put_commit (s.effectiveAddress a raw16).toNat n (s.reg b) s.npc
  refine ⟨_, exec_sw_of_inMemory b hi, by simp [hmem], fun n hn => by simp [hmem, hn], rfl, fun _ => rfl,
    State.commit_committed _ _, fun hpc => ?_⟩
  rw [State.fetch_of_pc_eq hpc.symm hi, hmem, if_pos rfl]

end Sys2Proof.Machine
end

section
/-! Control transfer (43_control_transfer.md): the branch, the link, and the fault that an unchecked target leads to. -/

namespace Sys2Proof.Machine

/-- A Running core whose pc lies outside the memory raises `PCOutOfRange` (40_step_cycle.md R82, 60_exceptions.md R145). -/
theorem step_pcOutOfRange {s : State} (hr : s.run = .running) (h : s.pc < 0 ∨ 65535 < s.pc) :
    ∃ t, step s = .next t ∧ FaultTaken .pcOutOfRange s.pc s t := by
  have hout : inMemory s.pc = false := (inMemory_false_iff _).mpr (by omega)
  have hraise : s.nextInstr = .error ⟨.pcOutOfRange, s.pc⟩ := by simp [State.nextInstr, State.fetch, hout]
  exact ⟨_, step_of_raise hr hraise, s.takeFault_faultTaken _ _⟩

/-- The target of a taken branch in the terms of Lean's signed reading (43_control_transfer.md R120). -/
theorem State.branchTarget_eq_toInt_add (s : State) (raw16 : BitVec 16) :
    s.branchTarget raw16 = s.pc + 1 + raw16.toInt := by
  rw [State.branchTarget, State.npc, sext32_eq_toInt]

/-- Settles O21: `beq` answers with a commit that writes nothing, and the next fetch checks the target. -/
theorem beqBranchesOnEqualRegisters : Obligations.BeqBranchesOnEqualRegisters := by
  intro s a b raw16
  have htaken : s.reg a = s.reg b →
      (if s.reg a = s.reg b then s.branchTarget raw16 else s.npc) = s.pc + 1 + raw16.toInt :=
    fun h => (if_pos h).trans (s.branchTarget_eq_toInt_add raw16)
  refine ⟨packFields_iFormat_toNat (by decide) a b raw16, dispatch_encode _, _, exec_of_answers rfl,
    htaken, fun h => if_neg h, fun h => htaken (congrArg s.reg h), fun _ => rfl, fun _ => rfl,
    s.commit_committed _, fun hpc => ?_, fun hr => step_pcOutOfRange hr⟩
  have hoff := sext32_range raw16
  simp only [State.commit_pc, State.branchTarget, State.npc]
  split <;> omega

/-- Settles O22: the answer is a commit that writes one register, and its target is read from the registers it leaves. -/
theorem jalrLinksThenJumps : Obligations.JalrLinksThenJumps := by
  intro s a b
  obtain ⟨t, hexec, hlink⟩ := exec_jalr_link s a b
  obtain rfl := exec_answers hexec
  refine ⟨_, hexec, hlink, signed_eq_toInt _, fun hab => ?_, ?_, s.writeReg_commit_frame b _ _⟩
  · simp [State.link, hab, signed_eq_toInt]
  · rintro rfl hpc
    have hfits : fitsSigned32 s.npc := by simp only [fitsSigned32, State.npc]; omega
    rw [State.commit_pc, State.link, State.reg_writeReg, if_pos rfl, signed_trunc32 hfits, State.npc]

end Sys2Proof.Machine
end

section
/-! `halt` and `noop` (44_halt_noop.md): what each commits, and the words that are one. -/

namespace Sys2Proof.Machine

/-- Bits 31:25 are clear and bits 24:22 hold an opcode exactly for the `2 ^ 22` words from `2 ^ 22` times that opcode on. -/
theorem fields_eq_opcode_iff (w : Word) {op : Nat} (h : op < 8) :
    field w 31 25 = 0 ∧ field w 24 22 = op ↔ 2 ^ 22 * op ≤ w.toNat ∧ w.toNat < 2 ^ 22 * (op + 1) := by
  simp only [field]; omega

/-- Every word of an O-format opcode is the instruction, whatever bits 21:0 hold (30_encoding.md R60; log 10). -/
theorem dispatch_oFormat_iff (w : Word) {i : Instr} (h : i = .halt ∨ i = .noop) :
    dispatch w = some i ↔ 2 ^ 22 * i.opcode ≤ w.toNat ∧ w.toNat < 2 ^ 22 * (i.opcode + 1) := by
  have hop : i.opcode < 8 := by rcases h with rfl | rfl <;> decide
  rw [← fields_eq_opcode_iff w hop]
  constructor
  · intro hd
    obtain ⟨hhigh, hopc, -⟩ := dispatch_eq_some hd
    exact ⟨hhigh, hopc⟩
  · rintro ⟨hhigh, hopc⟩
    rw [dispatch_of_opcode (op := ⟨i.opcode, hop⟩) hhigh hopc]
    rcases h with rfl | rfl <;> rfl

/-- Settles O23: `halt` answers with the commit of a Halted core, which takes no step; opcode 6 gives its words. -/
theorem haltStopsTheCore : Obligations.HaltStopsTheCore := by
  refine ⟨fun s => ?_, fun w => ?_⟩
  · have hstopped : (s.halt.commit s.npc).run ≠ .running := nofun
    exact ⟨_, exec_of_answers rfl, rfl, rfl, rfl, ⟨rfl, rfl, rfl⟩, fun _ => rfl, fun _ => rfl,
      step_of_stopped hstopped⟩
  · rw [dispatch_oFormat_iff w (.inl rfl), Instr.opcode]
    omega

/-- Settles O24: `noop` answers with a bare commit, whose pc the next fetch checks; opcode 7 gives its words. -/
theorem noopOnlyAdvancesThePc : Obligations.NoopOnlyAdvancesThePc := by
  refine ⟨fun s => ?_, fun w => ?_⟩
  · refine ⟨_, exec_of_answers rfl, rfl, s.commit_committed s.npc, fun _ => rfl, fun _ => rfl, fun hr hpc => ?_⟩
    have hnpc : (s.commit s.npc).pc = 65536 := by simp [State.npc, hpc]
    exact hnpc ▸ step_pcOutOfRange hr (.inr (by omega))
  · rw [dispatch_oFormat_iff w (.inr rfl), Instr.opcode]
    omega

end Sys2Proof.Machine
end

section
/-! The faults of a step (60_exceptions.md): the first check that fails, and the fault it is taken as, whole. -/

namespace Sys2Proof.Machine

/-! ## The check of an instruction -/

/-- The fault an instruction raises as it executes, if its check fails: the destination of `add` and `nor`, the address of
`lw` and `sw` (60_exceptions.md R143, R146). -/
def State.execRaise? (s : State) (i : Instr) : Option Raise :=
  match i with
  | .add _ _ dest | .nor _ _ dest =>
    if 7 < dest.toNat then some ⟨.invalidRegister, unsigned s.fetchedWord⟩ else none
  | .lw a _ raw16 | .sw a _ raw16 =>
    if s.effectiveAddress a raw16 < 0 ∨ 65535 < s.effectiveAddress a raw16 then
      some ⟨.memoryBounds, s.effectiveAddress a raw16⟩
    else none
  | .beq _ _ _ | .jalr _ _ | .halt | .noop => none

/-- A destination field names no register exactly when it is above 7 (30_encoding.md R59). -/
theorem destReg?_eq_none_iff (dest : BitVec 16) : destReg? dest = none ↔ 7 < dest.toNat := by
  simp [destReg?]

/-- An instruction takes the fault of its check, or passes the check and commits. -/
theorem Answers.execRaise?_or_commit {i : Instr} {s t : State} (h : Answers i s t) :
    (∃ r, s.execRaise? i = some r ∧ t = s.takeFault r.cause r.info) ∨ (s.execRaise? i = none ∧ CommitFrame i s t) := by
  cases i with
  | add a b dest | nor a b dest =>
    obtain ⟨hd, rfl⟩ | ⟨d, hd, rfl⟩ := h
    · exact .inl ⟨_, if_pos ((destReg?_eq_none_iff dest).mp hd), rfl⟩
    · exact .inr ⟨if_neg (mt (destReg?_eq_none_iff dest).mpr (by simp [hd])), rfl, rfl, rfl, rfl, rfl⟩
  | lw a b raw16 | sw a b raw16 =>
    obtain ⟨hi, rfl⟩ | ⟨hi, rfl⟩ := h
    · rw [inMemory_false_iff] at hi
      exact .inl ⟨_, if_pos (by omega), rfl⟩
    · rw [inMemory_iff] at hi
      exact .inr ⟨if_neg (by omega), rfl, rfl, rfl, rfl, rfl⟩
  | beq a b raw16 | jalr a b | halt | noop =>
    obtain rfl := h
    exact .inr ⟨rfl, rfl, rfl, rfl, rfl, rfl⟩

/-- An instruction whose check fails takes that fault, whole (60_exceptions.md R149). -/
theorem exec_faultTaken_of_execRaise?_eq_some {i : Instr} {s : State} {r : Raise} (h : s.execRaise? i = some r) :
    ∃ t, exec i s = .next t ∧ FaultTaken r.cause r.info s t := by
  obtain ⟨t, ha⟩ := exists_answers i s
  refine ⟨t, exec_of_answers ha, ?_⟩
  obtain ⟨r', hr', rfl⟩ | ⟨hnone, _⟩ := ha.execRaise?_or_commit
  · obtain rfl := Option.some.inj (hr'.symm.trans h)
    exact s.takeFault_faultTaken _ _
  · simp [hnone] at h

/-- An instruction whose check passes commits (40_step_cycle.md R89). -/
theorem exec_commits_of_execRaise?_eq_none {i : Instr} {s : State} (h : s.execRaise? i = none) :
    ∃ t, exec i s = .next t ∧ CommitFrame i s t := by
  obtain ⟨t, ha⟩ := exists_answers i s
  refine ⟨t, exec_of_answers ha, ?_⟩
  obtain ⟨r, hr, _⟩ | ⟨_, hcommit⟩ := ha.execRaise?_or_commit
  · simp [h] at hr
  · exact hcommit

/-- Only `lw` and `sw` raise `MemoryBounds`, out of bounds (60_exceptions.md R146). -/
theorem State.execRaise?_memoryBounds {i : Instr} {s : State} {r : Raise} (h : s.execRaise? i = some r)
    (hc : r.cause = .memoryBounds) :
    ∃ (a b : RegIdx) (raw16 : BitVec 16), (i = .lw a b raw16 ∨ i = .sw a b raw16) ∧
      (s.effectiveAddress a raw16 < 0 ∨ 65535 < s.effectiveAddress a raw16) := by
  cases i with
  | add a b dest | nor a b dest =>
    obtain ⟨_, hr⟩ := Option.ite_none_right_eq_some.mp h
    obtain rfl := Option.some.inj hr
    cases hc
  | lw a b raw16 => exact ⟨a, b, raw16, .inl rfl, (Option.ite_none_right_eq_some.mp h).1⟩
  | sw a b raw16 => exact ⟨a, b, raw16, .inr rfl, (Option.ite_none_right_eq_some.mp h).1⟩
  | beq a b raw16 | jalr a b | halt | noop => cases h

/-- Settles O18: the check of the destination fails, and the step that fetches such a word runs the instruction. -/
theorem rFormatReservedBitsRaiseInvalidRegister : Obligations.RFormatReservedBitsRaiseInvalidRegister := by
  rintro s a b dest _ hgt rfl
  have hadd := exec_faultTaken_of_execRaise?_eq_some (i := .add a b dest) (s := s) (if_pos hgt)
  have hnor := exec_faultTaken_of_execRaise?_eq_some (i := .nor a b dest) (s := s) (if_pos hgt)
  refine ⟨hadd, hnor, fun hr h0 h1 hd => ?_⟩
  rcases hd with hd | hd
  · rwa [(stepRunsTheDecodedInstruction s _ hr h0 h1).2 hd]
  · rwa [(stepRunsTheDecodedInstruction s _ hr h0 h1).2 hd]

/-- Settles O32: out of bounds both take the fault; a commit keeps the record, so a new `MemoryBounds` is a failed check. -/
theorem accessOutsideMemoryRaisesMemoryBounds : Obligations.AccessOutsideMemoryRaisesMemoryBounds := by
  refine ⟨?_, fun s t i h hs ht => ?_⟩
  · rintro s a b raw16 _ rfl hout
    exact exec_memoryBounds b hout
  · obtain ⟨r, hr, rfl⟩ | ⟨_, hcommit⟩ := (exec_answers h).execRaise?_or_commit
    · exact State.execRaise?_memoryBounds hr ht
    · obtain ⟨hcause, _⟩ := hcommit.record
      exact absurd (hcause ▸ ht) hs

/-! ## The priority of the checks -/

/-- Bits 15:3 are what a destination field has above a register number (30_encoding.md R59). -/
theorem extractLsb_15_3_ne_zero_iff (w : Word) : w.extractLsb 15 3 ≠ 0 ↔ 7 < (raw16Of w).toNat := by
  have hzero : w.extractLsb 15 3 = 0 ↔ field w 15 3 = 0 := extractLsb_eq_iff w 15 3 0 (by decide)
  rw [ne_eq, hzero, raw16Of_toNat]
  simp only [field]; omega

/-- A word is dispatched exactly when none of bits 31:25 is set (30_encoding.md R58). -/
theorem dispatch_eq_none_iff_extractLsb (w : Word) : dispatch w = none ↔ w.extractLsb 31 25 ≠ 0 :=
  (dispatch_eq_none_iff w).trans (not_congr (extractLsb_eq_iff w 31 25 0 (by decide)).symm)

/-- The check of the instruction that the fetched word is dispatched to, by the bits of that word
(60_exceptions.md R143, R146). -/
theorem State.execRaise?_of_dispatch {s : State} {w : Word} {i : Instr} {a : RegIdx} {ea : Int}
    (hd : dispatch w = some i) (hw : w = s.memWord s.pc.toNat) (ha : a.val = (w.extractLsb 21 19).toNat)
    (hea : ea = (s.reg a).toInt + (w.extractLsb 15 0).toInt) :
    s.execRaise? i =
      if (w.extractLsb 24 22 = 0 ∨ w.extractLsb 24 22 = 1) ∧ w.extractLsb 15 3 ≠ 0 then
        some ⟨.invalidRegister, w.toNat⟩
      else if (w.extractLsb 24 22 = 2 ∨ w.extractLsb 24 22 = 3) ∧ (ea < 0 ∨ 65535 < ea) then some ⟨.memoryBounds, ea⟩
      else none := by
  obtain ⟨-, hop, hfields⟩ := dispatch_eq_some hd
  have hopc (k : Nat) (hk : k < 8) : w.extractLsb 24 22 = BitVec.ofNat 3 k ↔ i.opcode = k :=
    hop ▸ extractLsb_eq_iff w 24 22 k hk
  have h0 : w.extractLsb 24 22 = 0 ↔ i.opcode = 0 := hopc 0 (by decide)
  have h1 : w.extractLsb 24 22 = 1 ↔ i.opcode = 1 := hopc 1 (by decide)
  have h2 : w.extractLsb 24 22 = 2 ↔ i.opcode = 2 := hopc 2 (by decide)
  have h3 : w.extractLsb 24 22 = 3 ↔ i.opcode = 3 := hopc 3 (by decide)
  obtain rfl : regAOf w = a := Fin.ext (by rw [regAOf_val, field_eq_extractLsb, ha])
  have hraw : raw16Of w = w.extractLsb 15 0 := BitVec.eq_of_toNat_eq (by rw [raw16Of_toNat, field_eq_extractLsb])
  rw [← hraw, ← s.effectiveAddress_eq_toInt_add] at hea
  subst hea
  simp only [h0, h1, h2, h3, extractLsb_15_3_ne_zero_iff]
  cases i with
  | add a b d | nor a b d =>
    obtain ⟨rfl, rfl, rfl⟩ := hfields
    simp [State.execRaise?, Instr.opcode, State.fetchedWord, unsigned, ← hw]
  | lw a b d | sw a b d =>
    obtain ⟨rfl, rfl, rfl⟩ := hfields
    simp [State.execRaise?, Instr.opcode]
  | beq a b d | jalr a b | halt | noop => simp [State.execRaise?, Instr.opcode]

/-- Settles O30: the fetch checks the pc. -/
theorem fetchOutsideMemoryRaisesPcOutOfRange : Obligations.FetchOutsideMemoryRaisesPcOutOfRange :=
  fun _ hr hout => step_pcOutOfRange hr hout

/-- Settles O31: such a word is fetched and not dispatched. -/
theorem highBitsRaiseUnsupportedOpcode : Obligations.HighBitsRaiseUnsupportedOpcode := by
  intro s hr h0 h1 hbits
  have hnone := (dispatch_eq_none_iff_extractLsb _).mpr hbits
  rcases s.nextInstr_cases with ⟨hout, _⟩ | ⟨_, _, hn⟩ | ⟨_, i, hd, _⟩
  · rw [inMemory_false_iff] at hout; omega
  · exact ⟨_, step_of_raise hr hn, s.takeFault_faultTaken _ _⟩
  · simp [hnone] at hd

/-- Settles O29, along the chain: the checks of the fetch and of the dispatch, then those of the dispatched instruction,
which commits if they pass. -/
theorem firstFailingCheckIsTheFault : Obligations.FirstFailingCheckIsTheFault := by
  rintro s _ a ea hr rfl ha hea
  by_cases hout : s.pc < 0 ∨ 65535 < s.pc
  · simpa only [if_pos hout] using step_pcOutOfRange hr hout
  obtain ⟨h0, h1⟩ : 0 ≤ s.pc ∧ s.pc ≤ 65535 := by omega
  by_cases hhigh : (s.memWord s.pc.toNat).extractLsb 31 25 ≠ 0
  · simpa only [if_neg hout, if_pos hhigh] using highBitsRaiseUnsupportedOpcode s hr h0 h1 hhigh
  obtain ⟨i, hd⟩ := Option.ne_none_iff_exists'.mp (mt (dispatch_eq_none_iff_extractLsb _).mp hhigh)
  have hraise := State.execRaise?_of_dispatch hd rfl ha hea
  simp only [if_neg hout, if_neg hhigh, (stepRunsTheDecodedInstruction s i hr h0 h1).2 hd]
  split_ifs at hraise ⊢ with hdest haddr
  · exact exec_faultTaken_of_execRaise?_eq_some hraise
  · exact exec_faultTaken_of_execRaise?_eq_some hraise
  · obtain ⟨t, ht, hcommit⟩ := exec_commits_of_execRaise?_eq_none hraise
    exact ⟨t, ht, hcommit.not_faulted hr, hcommit.icount, hcommit.record⟩

end Sys2Proof.Machine
end

section
/-! The reset input and the launch of an image (70_reset_and_hazards.md R170, R171; 20_memory.md R45). -/

namespace Sys2Proof.Machine

/-! ## The reset input -/

/-- A clock edge with `rst = 1` resets the core (decision D17). -/
theorem clockEdge_true (s : State) : clockEdge true s = .next s.resetCore := rfl

/-- A clock edge with `rst = 0` is a step. -/
theorem clockEdge_false (s : State) : clockEdge false s = step s := rfl

/-- The first fetch after a reset is from address 0, in the memory as it was. -/
theorem State.fetch_resetCore (s : State) : s.resetCore.fetch = .ok (s.memWord 0) :=
  State.fetch_of_pc_eq s.resetCore_pc ((inMemory_iff 0).mpr (by decide))

/-- Settles O2: the edge gives the reset core, whose fields are read by its laws. -/
theorem resetInputRestartsCoreAndKeepsMemory : Obligations.ResetInputRestartsCoreAndKeepsMemory :=
  fun s => ⟨⟨_, clockEdge_true s, s.resetCore_pc, s.reg_resetCore, s.resetCore_run, s.resetCore_faultCause,
    s.resetCore_faultPc, s.resetCore_faultInfo, s.resetCore_icount, s.memWord_resetCore, s.fetch_resetCore⟩,
    clockEdge_false s⟩

/-! ## The launch of an image -/

/-- A word below the image's length is that of the image (20_memory.md R45). -/
theorem State.memWord_putAll_zero_of_lt {s t : State} {image : List Word} (h : t.mem = s.mem.putAll 0 image) {n : Nat}
    (hn : n < image.length) : t.memWord n = image[n] := by
  rw [State.memWord_putAll_zero h, List.getElem?_eq_getElem hn, Option.getD_some]

/-- A word above the image is what it was (70_reset_and_hazards.md R171). -/
theorem State.memWord_putAll_zero_of_length_le {s t : State} {image : List Word} (h : t.mem = s.mem.putAll 0 image)
    {n : Nat} (hn : image.length ≤ n) : t.memWord n = s.memWord n := by
  rw [State.memWord_putAll_zero h, List.getElem?_eq_none hn, Option.getD_none]

/-- Settles O3: an image that fits is written into the memory of the reset core, and a longer one is refused. -/
theorem launchPlacesImageFromAddressZero : Obligations.LaunchPlacesImageFromAddressZero := by
  refine fun s image => ⟨fun hlen => ?_, s.launch_of_length_gt⟩
  exact ⟨_, s.launch_of_length_le hlen, fun _ hn => State.memWord_putAll_zero_of_lt (s := s) rfl hn,
    fun _ hn => State.memWord_putAll_zero_of_length_le (s := s) rfl hn, s.resetCore_pc, s.reg_resetCore, s.resetCore_run,
    s.resetCore_faultCause, s.resetCore_faultPc, s.resetCore_faultInfo, s.resetCore_icount,
    fun hwf => Memory.putAll_wf image 0 hwf (by omega)⟩

end Sys2Proof.Machine
end

section
/-! Words of the spec's tables, as the packings of their fields (95_test_vectors.md, tables D and E). -/

namespace Sys2Proof

/-- Settles O11: each word is the packing of the fields of its table row; the two non-canonical ones, of `jalr` and `halt`, are
packings with ones in the bits that their formats ignore (30_encoding.md R60). -/
theorem sampleWordsDecode : Obligations.SampleWordsDecode :=
  ⟨decode_packFields (op := 0) (raw16 := 3) 1 2 (by decide), decode_packFields (op := 1) (raw16 := 3) 1 2 (by decide),
    decode_packFields (op := 2) (raw16 := 0xFFFF) 7 7 (by decide),
    decode_packFields (op := 3) (raw16 := 0xFFFC) 5 6 (by decide),
    decode_packFields (op := 4) (raw16 := 0xFFFC) 0 0 (by decide),
    decode_packFields (op := 5) (raw16 := 0xFFFF) 1 2 (by decide),
    decode_packFields (op := 6) (raw16 := 0xFFFF) 7 7 (by decide), decode_packFields (op := 7) (raw16 := 0) 0 0 (by decide)⟩

end Sys2Proof
end
